-- ==== Sys2Proof/Word.lean ====
section
/-! DEFINITION. The words that move on the ports and the length select (spec/00_scope.md R9, R10; spec/20_memory.md R41). -/

namespace Sys2Proof

/-- A byte, the content of one lane (R9, R46). -/
abbrev Byte := BitVec 8

/-- The command word `CMD` (R60). -/
abbrev CmdWord := BitVec 16

/-- A value on one of the ports `A_bus`, `B_bus`, `M_bus`, `R` (R41). -/
abbrev Bus := BitVec 128

/-- The index of a wildcard context, 0 to 3 (R20, R37). -/
abbrev CtxIndex := Fin 4

/-- The length select `FAM`: no other length is legal (R10). -/
inductive Fam
  /-- `FAM = 0`, `L = 4`. -/
  | ipv4
  /-- `FAM = 1`, `L = 16`. -/
  | ipv6
  deriving DecidableEq, Repr

end Sys2Proof
end

