-- ==== Sys2Proof/Config.lean ====
section
/-! DEFINITION. The parameters of the block (spec/00_scope.md R9). The widths of the ports and of the command word and the
number of contexts stand in `Bus`, `CmdWord` and `CtxIndex`. The spec leaves no value open, so there is no free value here;
its two open parameters, `LATENCY` and `HANDSHAKE`, are represented by nothing (R58, R232; log entry 10). -/

namespace Sys2Proof

/-- `L`, the logical address length in bytes (R9, R10). -/
def Fam.len : Fam → Nat
  | .ipv4 => 4
  | .ipv6 => 16

/-- `n = 8 * L`, the operand width in bits (R9). -/
def Fam.bits (f : Fam) : Nat := 8 * f.len

end Sys2Proof
end

