-- ==== Sys2Proof/Syntax.lean ====
section
/-! DEFINITION. The 17 commands (spec/30_encoding.md R62) with the fields each one leaves free (R63 to R67), and the six raw
fields of a command word (R61). -/

namespace Sys2Proof

/-- The operation names, one for each assigned code of R62. -/
inductive Op
  | not | and | or | xor | merge
  | next | prev | wnext | wprev
  | add | sub
  | wset | wip | wmask | wmatch | wfirst | wlast
  deriving DecidableEq, Repr

/-- A command: its operation and the fields the encoding leaves free. A field that must have one value (R64 to R66) is no
argument, so a term of this type is always a legal command. -/
inductive Instr
  /-- R91 -/
  | not (fam : Fam)
  /-- R93 -/
  | and (fam : Fam)
  /-- R94 -/
  | or (fam : Fam)
  /-- R95 -/
  | xor (fam : Fam)
  /-- R97 -/
  | merge (fam : Fam)
  /-- R111 -/
  | next (fam : Fam)
  /-- R113 -/
  | prev (fam : Fam)
  /-- R118; `w` is the context stepped. -/
  | wnext (fam : Fam) (w : CtxIndex)
  /-- R122; `w` is the context stepped. -/
  | wprev (fam : Fam) (w : CtxIndex)
  /-- R131; `men` says whether `M_bus` carries a set mask. -/
  | add (fam : Fam) (men : Bool)
  /-- R133; `men` says whether `M_bus` carries a set mask. -/
  | sub (fam : Fam) (men : Bool)
  /-- R151; `w` is the destination. -/
  | wset (fam : Fam) (w : CtxIndex)
  /-- R153 -/
  | wip (fam : Fam) (w : CtxIndex)
  /-- R154 -/
  | wmask (fam : Fam) (w : CtxIndex)
  /-- R156 -/
  | wmatch (fam : Fam) (w : CtxIndex)
  /-- R159; `w` is the destination, `ws` the source. -/
  | wfirst (fam : Fam) (w ws : CtxIndex)
  /-- R162; `w` is the destination, `ws` the source. -/
  | wlast (fam : Fam) (w ws : CtxIndex)
  deriving DecidableEq, Repr

/-- The operation of a command. -/
def Instr.op : Instr → Op
  | .not _ => .not
  | .and _ => .and
  | .or _ => .or
  | .xor _ => .xor
  | .merge _ => .merge
  | .next _ => .next
  | .prev _ => .prev
  | .wnext _ _ => .wnext
  | .wprev _ _ => .wprev
  | .add _ _ => .add
  | .sub _ _ => .sub
  | .wset _ _ => .wset
  | .wip _ _ => .wip
  | .wmask _ _ => .wmask
  | .wmatch _ _ => .wmatch
  | .wfirst _ _ _ => .wfirst
  | .wlast _ _ _ => .wlast

/-- The length select every command carries (R63). -/
def Instr.fam : Instr → Fam
  | .not f | .and f | .or f | .xor f | .merge f | .next f | .prev f => f
  | .add f _ | .sub f _ => f
  | .wnext f _ | .wprev f _ | .wset f _ | .wip f _ | .wmask f _ | .wmatch f _ => f
  | .wfirst f _ _ | .wlast f _ _ => f

/-- The raw fields of a command word (R61). -/
structure Fields where
  /-- `CMD[4:0]` -/
  op : BitVec 5
  /-- `CMD[5]` -/
  fam : BitVec 1
  /-- `CMD[6]` -/
  men : BitVec 1
  /-- `CMD[8:7]` -/
  w : BitVec 2
  /-- `CMD[10:9]` -/
  ws : BitVec 2
  /-- `CMD[15:11]` -/
  rsv : BitVec 5
  deriving DecidableEq, Repr

end Sys2Proof
end

