-- ==== Sys2Proof/WellFormed.lean ====
section
/-! DEFINITION. When the raw fields of a command word are a legal command (spec/30_encoding.md R64 to R66, R68), one check for
each of the ways R68 lists. Written from the raw codes, apart from the decoder. -/

namespace Sys2Proof

/-- `RSV` must be 0 (R66). -/
def Fields.rsvOk (d : Fields) : Bool := d.rsv == 0

/-- `OP` is one of the 17 codes of R62, none of the fifteen reserved ones. -/
def Fields.opOk (d : Fields) : Bool :=
  [0x00, 0x01, 0x02, 0x03, 0x04, 0x08, 0x09, 0x0A, 0x0B, 0x10, 0x11, 0x18, 0x19, 0x1A, 0x1B, 0x1C, 0x1D].contains d.op.toNat

/-- `MEN` by `OP` (R64): either value for ADD and SUB, 1 for MERGE and WSET, 0 for every other command. -/
def Fields.menOk (d : Fields) : Bool :=
  if d.op = 0x10 ∨ d.op = 0x11 then true
  else if d.op = 0x04 ∨ d.op = 0x18 then d.men == 1
  else d.men == 0

/-- `W` must be 0 for the nine context-free commands, whose codes are those of the bitwise unit, of the adder, and NEXT and
PREV (R65). -/
def Fields.wOk (d : Fields) : Bool :=
  if d.op.toNat < 0x0A ∨ d.op = 0x10 ∨ d.op = 0x11 then d.w == 0 else true

/-- `WS` must be 0 but for WFIRST and WLAST (R65). -/
def Fields.wsOk (d : Fields) : Bool :=
  if d.op = 0x1C ∨ d.op = 0x1D then true else d.ws == 0

/-- The fields of a legal word (R68). -/
def Fields.wellFormed (d : Fields) : Bool := d.rsvOk && d.opOk && d.menOk && d.wOk && d.wsOk

end Sys2Proof
end

