-- ==== Sys2Proof/Decode.lean ====
section
/-! DEFINITION. The decoder, total on every 16-bit word and rejecting by name in the order of spec/30_encoding.md R71; after
it the encoder (R61, R62) and the match and mask table of R72. -/

namespace Sys2Proof

/-- Why a word is illegal. Every one of them answers ILLEGAL (R205), so the names are not observable (R71). -/
inductive IllegalWord
  /-- `RSV` is not 0 (R66). -/
  | reservedBits
  /-- `OP` is a reserved code (R62). -/
  | reservedOp
  /-- `MEN` has a value the command forbids (R64). -/
  | forbiddenMen
  /-- `W` is not 0 on a command that names no context (R65). -/
  | forbiddenW
  /-- `WS` is not 0 on a command that has no source context (R65). -/
  | forbiddenWs
  deriving DecidableEq, Repr

/-- The fields of a word (R61). -/
def fieldsOf (c : CmdWord) : Fields where
  op := c.extractLsb' 0 5
  fam := c.extractLsb' 5 1
  men := c.extractLsb' 6 1
  w := c.extractLsb' 7 2
  ws := c.extractLsb' 9 2
  rsv := c.extractLsb' 11 5

/-- The operation of a code; none for the fifteen reserved codes (R62). -/
def Op.ofCode (code : BitVec 5) : Option Op :=
  match code.toNat with
  | 0x00 => some .not
  | 0x01 => some .and
  | 0x02 => some .or
  | 0x03 => some .xor
  | 0x04 => some .merge
  | 0x08 => some .next
  | 0x09 => some .prev
  | 0x0A => some .wnext
  | 0x0B => some .wprev
  | 0x10 => some .add
  | 0x11 => some .sub
  | 0x18 => some .wset
  | 0x19 => some .wip
  | 0x1A => some .wmask
  | 0x1B => some .wmatch
  | 0x1C => some .wfirst
  | 0x1D => some .wlast
  | _ => none

/-- Whether the command may carry this `MEN` (R64). -/
def Op.allowsMen (op : Op) (men : BitVec 1) : Bool :=
  match op with
  | .add | .sub => true
  | .merge | .wset => men == 1
  | .not | .and | .or | .xor | .next | .prev | .wnext | .wprev | .wip | .wmask | .wmatch | .wfirst | .wlast => men == 0

/-- Whether the command names a context in `W` (R65). -/
def Op.namesW : Op → Bool
  | .wnext | .wprev | .wset | .wip | .wmask | .wmatch | .wfirst | .wlast => true
  | .not | .and | .or | .xor | .merge | .next | .prev | .add | .sub => false

/-- Whether the command names a source context in `WS` (R65). -/
def Op.namesWs : Op → Bool
  | .wfirst | .wlast => true
  | .not | .and | .or | .xor | .merge | .next | .prev | .add | .sub => false
  | .wnext | .wprev | .wset | .wip | .wmask | .wmatch => false

/-- `FAM` (R61). -/
def famOf (b : BitVec 1) : Fam := if b = 0 then .ipv4 else .ipv6

/-- The command of an operation with its free fields; the others are dropped. -/
def Op.command (op : Op) (d : Fields) : Instr :=
  let f := famOf d.fam
  let w : CtxIndex := d.w.toFin
  let ws : CtxIndex := d.ws.toFin
  match op with
  | .not => .not f
  | .and => .and f
  | .or => .or f
  | .xor => .xor f
  | .merge => .merge f
  | .next => .next f
  | .prev => .prev f
  | .wnext => .wnext f w
  | .wprev => .wprev f w
  | .add => .add f (d.men == 1)
  | .sub => .sub f (d.men == 1)
  | .wset => .wset f w
  | .wip => .wip f w
  | .wmask => .wmask f w
  | .wmatch => .wmatch f w
  | .wfirst => .wfirst f w ws
  | .wlast => .wlast f w ws

/-- Steps 2 to 5 of R71, for a word whose reserved bits are 0. -/
def decodeOp (op : Op) (d : Fields) : Except IllegalWord Instr :=
  if !op.allowsMen d.men then .error .forbiddenMen
  else if !op.namesW && d.w != 0 then .error .forbiddenW
  else if !op.namesWs && d.ws != 0 then .error .forbiddenWs
  else .ok (op.command d)

/-- The decoder (R71). -/
def decode (c : CmdWord) : Except IllegalWord Instr :=
  let d := fieldsOf c
  if d.rsv != 0 then .error .reservedBits
  else
    match Op.ofCode d.op with
    | none => .error .reservedOp
    | some op => decodeOp op d

/-- What the decoder reads from a word given as a number of `nbits` bits, the bits above them 0. A row of more than 16 bits, or a
number that does not fit its row, is no command word (R60; log entry 13). -/
def decodeTableWord (nbits w : Nat) : Option Instr :=
  if nbits ≤ 16 ∧ w < 2 ^ nbits then (decode (BitVec.ofNat 16 w)).toOption else none

/-! The encoder. -/

/-- The code of an operation (R62). -/
def Op.code : Op → BitVec 5
  | .not => 0x00
  | .and => 0x01
  | .or => 0x02
  | .xor => 0x03
  | .merge => 0x04
  | .next => 0x08
  | .prev => 0x09
  | .wnext => 0x0A
  | .wprev => 0x0B
  | .add => 0x10
  | .sub => 0x11
  | .wset => 0x18
  | .wip => 0x19
  | .wmask => 0x1A
  | .wmatch => 0x1B
  | .wfirst => 0x1C
  | .wlast => 0x1D

/-- The bit of a length select (R61). -/
def Fam.code : Fam → BitVec 1
  | .ipv4 => 0
  | .ipv6 => 1

/-- The fields of a command: the live ones from its arguments, `MEN` by R64, the rest 0 (R61 to R66). -/
def Instr.fields (i : Instr) : Fields :=
  let plain (men : BitVec 1) (w ws : CtxIndex) : Fields :=
    { op := i.op.code, fam := i.fam.code, men := men, w := BitVec.ofFin w, ws := BitVec.ofFin ws, rsv := 0 }
  match i with
  | .not _ | .and _ | .or _ | .xor _ | .next _ | .prev _ => plain 0 0 0
  | .merge _ => plain 1 0 0
  | .add _ men | .sub _ men => plain (BitVec.ofBool men) 0 0
  | .wset _ w => plain 1 w 0
  | .wnext _ w | .wprev _ w | .wip _ w | .wmask _ w | .wmatch _ w => plain 0 w 0
  | .wfirst _ w ws | .wlast _ w ws => plain 0 w ws

/-- The word of six fields, `OP` lowest (R61). -/
def Fields.word (d : Fields) : CmdWord := d.rsv ++ d.ws ++ d.w ++ d.men ++ d.fam ++ d.op

/-- The word of a command (R61, R62). -/
def encode (i : Instr) : CmdWord := i.fields.word

/-- The `match` of an operation's row (R72). -/
def Op.matchWord : Op → CmdWord
  | .not => 0x0000
  | .and => 0x0001
  | .or => 0x0002
  | .xor => 0x0003
  | .merge => 0x0044
  | .next => 0x0008
  | .prev => 0x0009
  | .wnext => 0x000A
  | .wprev => 0x000B
  | .add => 0x0010
  | .sub => 0x0011
  | .wset => 0x0058
  | .wip => 0x0019
  | .wmask => 0x001A
  | .wmatch => 0x001B
  | .wfirst => 0x001C
  | .wlast => 0x001D

/-- The `mask` of an operation's row (R72): its fixed bits. -/
def Op.maskWord : Op → CmdWord
  | .not | .and | .or | .xor | .merge | .next | .prev => 0xFFDF
  | .add | .sub => 0xFF9F
  | .wnext | .wprev | .wset | .wip | .wmask | .wmatch => 0xFE5F
  | .wfirst | .wlast => 0xF85F

end Sys2Proof
end

