-- ==== Sys2Proof/Machine/State.lean ====
section
/-! DEFINITION. The state of the machine, plain data (spec/10_state.md R20 to R38, spec/20_memory.md R40, R41): the four
wildcard contexts, which are all the architectural state there is, beside them the transaction on the command port, the
transactions the host has still to issue, and the responses given so far. -/

namespace Sys2Proof.Machine

/-- The value of a valid context (R21). The three addresses have the length `fam` selects (R25), 32 or 128 bits. The bit
`valid` is not a field: a context that holds no value is the `none` of `State.contexts` (R28; log entry 1). -/
structure Context where
  /-- the length select of the context -/
  fam : Fam
  /-- the cursor -/
  ip : BitVec fam.bits
  /-- the fixed value of the care bits -/
  bits : BitVec fam.bits
  /-- the care bits: 1 must match, 0 is don't-care (R22) -/
  mask : BitVec fam.bits
  deriving DecidableEq, Repr

/-- What the host presents on the command port (R40, R41). -/
structure Transaction where
  /-- `CMD` -/
  cmd : CmdWord
  /-- `A_bus` -/
  aBus : Bus
  /-- `B_bus` -/
  bBus : Bus
  /-- `M_bus` -/
  mBus : Bus
  deriving DecidableEq, Repr

/-- The status of a response (spec/60_exceptions.md R201). -/
inductive Status
  /-- the command executed -/
  | ok
  /-- the command word is no legal word (R205) -/
  | illegal
  /-- the command reads a context that holds no value (R206) -/
  | winvalid
  /-- the command's `FAM` differs from the context's `fam` (R207) -/
  | family
  deriving DecidableEq, Repr

/-- What the block answers on the response port (R40, R41). -/
structure Response where
  /-- `STATUS` -/
  status : Status
  /-- `R` -/
  r : Bus
  /-- `FLAG` -/
  flag : Bool
  deriving DecidableEq, Repr

/-- Why a step stops with a fault: never. No behaviour of the block stops it (spec/60_exceptions.md R203, R209, R210), so
there is no constructor. An error of a transaction is a response, and the next state follows (log entry 2). -/
inductive Fault
  deriving DecidableEq, Repr

/-- Why a step is refused. -/
inductive Refusal
  /-- Raised by no arm: every command has its meaning. Safe: an instruction without a meaning would answer nothing. -/
  | notModelled (mnemonic : String)
  deriving DecidableEq, Repr

/-- The machine. Only `contexts` is state of the block (R20); the other fields are the host's side of the ports, which a step
from state to state has to carry (R35; log entries 3 and 5). -/
structure State where
  /-- `W[0..3]`; `none` is `valid = 0` (R20, R21, R28) -/
  contexts : Vector (Option Context) 4
  /-- the transaction on the command port (R41) -/
  port : Transaction
  /-- the transactions the host has still to issue, in issue order (R50, spec/70_reset_and_hazards.md R233) -/
  host : List Transaction
  /-- the responses given so far, oldest first (R233) -/
  responses : List Response
  deriving DecidableEq, Repr

/-- The state after reset: four contexts that hold no value (R38, R220), nothing on the ports, nothing issued (log entries 3,
5 and 6). -/
def State.reset : State where
  contexts := #v[none, none, none, none]
  port := { cmd := 0, aBus := 0, bBus := 0, mBus := 0 }
  host := []
  responses := []

end Sys2Proof.Machine
end

