-- ==== Sys2Proof/Machine/Ops.lean ====
section
/-! DEFINITION. The named operations on the state: reading and writing a context, answering, raising an error, the reset
event. -/

namespace Sys2Proof.Machine

/-- What stands in context `k`. -/
def State.context (s : State) (k : CtxIndex) : Option Context := s.contexts[k]

/-- Write a whole value into context `k`, which becomes valid; no other context changes (R28, R29). -/
def State.setContext (s : State) (k : CtxIndex) (c : Context) : State :=
  { s with contexts := s.contexts.set k (some c) }

/-- Put a response on the response port. -/
def State.respond (s : State) (r : Response) : State := { s with responses := s.responses ++ [r] }

/-- A command that executed with an address or mask as its result: `FLAG` is 0 (R33, R67). -/
def State.answer (s : State) (r : Bus) : State := s.respond { status := .ok, r := r, flag := false }

/-- A command that executed with a Boolean as its result: `R` is 0 (R67). -/
def State.answerFlag (s : State) (b : Bool) : State := s.respond { status := .ok, r := 0, flag := b }

/-- Raising an error (spec/60_exceptions.md R203): the response carries the status, with `R = 0` and `FLAG = 0`, and nothing
else changes. There is no entry to a handler and nothing to return from (R209, R210). -/
def State.raise (s : State) (e : Status) : State := s.respond { status := e, r := 0, flag := false }

/-- The checks before a command that reads context `k` (R204 steps 2 and 3): WINVALID where it holds no value, FAMILY where
its length is not the command's. -/
def State.readContext (s : State) (k : CtxIndex) (f : Fam) : Except Status Context :=
  match s.context k with
  | none => .error .winvalid
  | some c => if c.fam = f then .ok c else .error .family

/-- A command that reads context `k`: its effect where the checks pass, the error otherwise (R204). -/
def State.onContext (s : State) (k : CtxIndex) (f : Fam) (effect : Context → State) : Host.Outcome State Fault Refusal :=
  match s.readContext k f with
  | .error e => .next (s.raise e)
  | .ok c => .next (effect c)

/-- The reset event between two transactions (spec/70_reset_and_hazards.md R220, R222): every context loses its value, and
nothing else changes. -/
def State.applyReset (s : State) : State := { s with contexts := Vector.replicate 4 none }

/-- The two bits of a status (R201). -/
def Status.code : Status → BitVec 2
  | .ok => 0
  | .illegal => 1
  | .winvalid => 2
  | .family => 3

end Sys2Proof.Machine
end

