-- ==== Sys2Proof/Machine/Operands.lean ====
section
/-! DEFINITION. Operands and results: lane masking on the way in, zero extension on the way out, the optional mask, and the
byte view of an address (spec/00_scope.md R11 to R13, spec/20_memory.md R42 to R48). -/

namespace Sys2Proof.Machine

/-- `trunc_n` of an integer: its residue modulo `2^n`, non-negative for a negative integer (R11). -/
def truncN (n : Nat) (x : Int) : BitVec n := BitVec.ofInt n x

/-- The operand of length `f` on a port: its low `n` bits (R44). -/
def operand (f : Fam) (p : Bus) : BitVec f.bits := p.setWidth f.bits

/-- `A` (R13, R44). -/
def State.opA (s : State) (f : Fam) : BitVec f.bits := operand f s.port.aBus

/-- `B` (R13, R44). -/
def State.opB (s : State) (f : Fam) : BitVec f.bits := operand f s.port.bBus

/-- `M` (R13, R44). -/
def State.opM (s : State) (f : Fam) : BitVec f.bits := operand f s.port.mBus

/-- `zext_128`: an `n`-bit result on the port `R`, right-justified with zeros above (R43, R45). -/
def onBus {n : Nat} (v : BitVec n) : Bus := v.setWidth 128

/-- The mask that takes part: the one given, or all ones where the mask is unset (R48, R135). -/
def maskOrAll {n : Nat} (men : Bool) (m : BitVec n) : BitVec n := if men then m else BitVec.allOnes n

/-- `byte(v, i)`, byte 0 the most significant (R12). -/
def byteAt (f : Fam) (v : BitVec f.bits) (i : Nat) : Byte := v.extractLsb' (8 * (f.len - 1 - i)) 8

/-- The lanes of an address, lane 0 (the most significant byte) first (R42, R46). -/
def lanes (f : Fam) (v : BitVec f.bits) : List Byte := (List.range f.len).map (byteAt f v)

/-- The big-endian unsigned integer of a sequence of lanes: the sum of `byte(i) * 256^(L-1-i)` (R42). -/
def lanesValue : List Byte → Nat
  | [] => 0
  | b :: rest => b.toNat * 256 ^ rest.length + lanesValue rest

/-- The address that a sequence of lanes spells (R42). -/
def ofLanes (f : Fam) (bytes : List Byte) : BitVec f.bits := BitVec.ofNat f.bits (lanesValue bytes)

end Sys2Proof.Machine
end

