-- ==== Sys2Proof/Machine/Flags.lean ====
section
/-! DEFINITION. The one Boolean the block computes, the answer of WMATCH (spec/43_wildcard_context.md R156). It is the `FLAG`
of that response and is not stored; there is no carry, borrow, overflow or zero flag (spec/10_state.md R33). -/

namespace Sys2Proof.Machine

/-- `matches(candidate)`: the candidate agrees with `bits` on every care bit (R156, R157). -/
def matchFlag {n : Nat} (candidate mask bits : BitVec n) : Bool := candidate &&& mask == bits

end Sys2Proof.Machine
end

