-- ==== Sys2Proof/Machine/Adder.lean ====
section
/-! DEFINITION. The masked byte adder: ADD and SUB (spec/42_adder.md). The mask gates the second operand only; the carry chain
runs through all lanes (R136, spec/90_conflicts.md C4). -/

namespace Sys2Proof.Machine

/-- `trunc_n(a + (b & me))` (R131). -/
def addMasked {n : Nat} (a b me : BitVec n) : BitVec n := truncN n ((a.toNat : Int) + (b &&& me).toNat)

/-- `trunc_n(a - (b & me))` (R133). -/
def subMasked {n : Nat} (a b me : BitVec n) : BitVec n := truncN n ((a.toNat : Int) - (b &&& me).toNat)

/-- ADD (R131, R135). -/
def execAdd (f : Fam) (men : Bool) (s : State) : Host.Outcome State Fault Refusal :=
  .next (s.answer (onBus (addMasked (s.opA f) (s.opB f) (maskOrAll men (s.opM f)))))

/-- SUB (R133, R135). -/
def execSub (f : Fam) (men : Bool) (s : State) : Host.Outcome State Fault Refusal :=
  .next (s.answer (onBus (subMasked (s.opA f) (s.opB f) (maskOrAll men (s.opM f)))))

/-- The ripple of R132 on lanes, lane 0 first: the sum lanes and the carry that leaves the first of them. -/
def addLanes : (a b me : List Byte) → List Byte × Nat
  | a :: as, b :: bs, m :: ms =>
    let (low, c) := addLanes as bs ms
    let t := a.toNat + (b &&& m).toNat + c
    (BitVec.ofNat 8 (t % 256) :: low, t / 256)
  | _, _, _ => ([], 0)

/-- The ripple of R134 on lanes, lane 0 first: the difference lanes and the borrow that leaves the first of them. -/
def subLanes : (a b me : List Byte) → List Byte × Int
  | a :: as, b :: bs, m :: ms =>
    let (low, c) := subLanes as bs ms
    let t : Int := a.toNat - (b &&& m).toNat - c
    (BitVec.ofInt 8 t :: low, if t < 0 then 1 else 0)
  | _, _, _ => ([], 0)

end Sys2Proof.Machine
end

