-- ==== Sys2Proof/Machine/Bitwise.lean ====
section
/-! DEFINITION. The masked bitwise unit: NOT, AND, OR, XOR, MERGE (spec/40_bitwise.md). -/

namespace Sys2Proof.Machine

/-- IPCALC's `complement` on a mask that may be unset: unset stays unset (R92). The command NOT is its set case. -/
def complement {n : Nat} (m : Option (BitVec n)) : Option (BitVec n) := m.map (~~~ ·)

/-- IPCALC's `merge`: `b`'s bit where the mask has a 1, else `a`'s (R97, R98). -/
def mergeBits {n : Nat} (a b m : BitVec n) : BitVec n := (a &&& ~~~m) ||| (b &&& m)

/-- NOT (R91). -/
def execNot (f : Fam) (s : State) : Host.Outcome State Fault Refusal := .next (s.answer (onBus (~~~(s.opA f))))

/-- AND (R93). -/
def execAnd (f : Fam) (s : State) : Host.Outcome State Fault Refusal := .next (s.answer (onBus (s.opA f &&& s.opB f)))

/-- OR (R94). -/
def execOr (f : Fam) (s : State) : Host.Outcome State Fault Refusal := .next (s.answer (onBus (s.opA f ||| s.opB f)))

/-- XOR (R95). -/
def execXor (f : Fam) (s : State) : Host.Outcome State Fault Refusal := .next (s.answer (onBus (s.opA f ^^^ s.opB f)))

/-- MERGE (R97). -/
def execMerge (f : Fam) (s : State) : Host.Outcome State Fault Refusal :=
  .next (s.answer (onBus (mergeBits (s.opA f) (s.opB f) (s.opM f))))

end Sys2Proof.Machine
end

