-- ==== Sys2Proof/Machine/Stepper.lean ====
section
/-! DEFINITION. The next/prev address stepper: NEXT and PREV on a whole address, WNEXT and WPREV on the cursor of a wildcard
context (spec/41_stepper.md). -/

namespace Sys2Proof.Machine

/-- `next(addr)`: one more, modulo `2^n` (R110, R111). -/
def nextAddress {n : Nat} (a : BitVec n) : BitVec n := truncN n ((a.toNat : Int) + 1)

/-- `prev(addr)`: one less, modulo `2^n` (R110, R113). -/
def prevAddress {n : Nat} (a : BitVec n) : BitVec n := truncN n ((a.toNat : Int) - 1)

/-- NEXT (R111). -/
def execNext (f : Fam) (s : State) : Host.Outcome State Fault Refusal := .next (s.answer (onBus (nextAddress (s.opA f))))

/-- PREV (R113). -/
def execPrev (f : Fam) (s : State) : Host.Outcome State Fault Refusal := .next (s.answer (onBus (prevAddress (s.opA f))))

/-- The byte-by-byte increment of R112 on lanes, lane 0 first: the new lanes, and whether a carry leaves the first of them. A
byte overflows exactly when it becomes `0x00`. -/
def incLanes : List Byte → List Byte × Bool
  | [] => ([], true)
  | b :: rest =>
    let (low, carry) := incLanes rest
    if carry then ((b + 1) :: low, b + 1 == 0x00) else (b :: low, false)

/-- The byte-by-byte decrement of R114 on lanes, lane 0 first: the new lanes, and whether a borrow leaves the first of them. A
byte underflows exactly when it becomes `0xFF`. -/
def decLanes : List Byte → List Byte × Bool
  | [] => ([], true)
  | b :: rest =>
    let (low, borrow) := decLanes rest
    if borrow then ((b - 1) :: low, b - 1 == 0xFF) else (b :: low, false)

/-- The scan of R118 from bit `p` on, `left` bits still to visit: a care bit is skipped, a don't-care 1 is cleared and the scan
goes on, a don't-care 0 is set and ends it. -/
def scanUp {n : Nat} (mask : BitVec n) : (left p : Nat) → BitVec n → BitVec n
  | 0, _, x => x
  | left + 1, p, x =>
    if mask.getLsbD p then scanUp mask left (p + 1) x
    else if x.getLsbD p then scanUp mask left (p + 1) (x &&& ~~~BitVec.twoPow n p)
    else x ||| BitVec.twoPow n p

/-- The scan of R122 from bit `p` on, `left` bits still to visit: a care bit is skipped, a don't-care 0 is set and the scan goes
on, a don't-care 1 is cleared and ends it. -/
def scanDown {n : Nat} (mask : BitVec n) : (left p : Nat) → BitVec n → BitVec n
  | 0, _, x => x
  | left + 1, p, x =>
    if mask.getLsbD p then scanDown mask left (p + 1) x
    else if x.getLsbD p then x &&& ~~~BitVec.twoPow n p
    else scanDown mask left (p + 1) (x ||| BitVec.twoPow n p)

/-- The cursor after a Wildcard `next()`: the scan of all `n` bit positions, lowest first (R117, R118). -/
def wildcardNext {n : Nat} (mask ip : BitVec n) : BitVec n := scanUp mask n 0 ip

/-- The cursor after a Wildcard `prev()` (R117, R122). -/
def wildcardPrev {n : Nat} (mask ip : BitVec n) : BitVec n := scanDown mask n 0 ip

/-- Write a new cursor back to context `k`, whose value was `c`, and answer it (R117). -/
def State.moveCursor (s : State) (k : CtxIndex) (c : Context) (ip : BitVec c.fam.bits) : State :=
  (s.setContext k { c with ip := ip }).answer (onBus ip)

/-- WNEXT (R118, R120, R121). -/
def execWnext (f : Fam) (k : CtxIndex) (s : State) : Host.Outcome State Fault Refusal :=
  s.onContext k f fun c => s.moveCursor k c (wildcardNext c.mask c.ip)

/-- WPREV (R122, R124, R121). -/
def execWprev (f : Fam) (k : CtxIndex) (s : State) : Host.Outcome State Fault Refusal :=
  s.onContext k f fun c => s.moveCursor k c (wildcardPrev c.mask c.ip)

end Sys2Proof.Machine
end

