-- ==== Sys2Proof/Machine/Wildcard.lean ====
section
/-! DEFINITION. The wildcard context commands: WSET, WIP, WMASK, WMATCH, WFIRST, WLAST (spec/43_wildcard_context.md). -/

namespace Sys2Proof.Machine

/-- IPCALC's `construct(ip, wildcardMask)`: the care bits are the complement of the wildcard mask, and the cursor starts at the
given address (R151). -/
def construct (f : Fam) (ip wildcardMask : BitVec f.bits) : Context where
  fam := f
  ip := ip
  bits := ip &&& ~~~wildcardMask
  mask := ~~~wildcardMask

/-- `first()`: the cursor at `bits`, the fixed fields carried over (R159, R160; spec/90_conflicts.md C2). -/
def Context.first (c : Context) : Context := { c with ip := c.bits }

/-- `last()`: the cursor at `bits OR wildcardMask`, the fixed fields carried over (R162). -/
def Context.last (c : Context) : Context := { c with ip := c.bits ||| ~~~c.mask }

/-- Write a derived value to the destination and answer its cursor (R158). -/
def State.derive (s : State) (k : CtxIndex) (c : Context) : State := (s.setContext k c).answer (onBus c.ip)

/-- WSET (R151, R152): reads no context, so nothing but its encoding can refuse it. -/
def execWset (f : Fam) (k : CtxIndex) (s : State) : Host.Outcome State Fault Refusal :=
  .next ((s.setContext k (construct f (s.opA f) (s.opM f))).answer 0)

/-- WIP (R153). -/
def execWip (f : Fam) (k : CtxIndex) (s : State) : Host.Outcome State Fault Refusal :=
  s.onContext k f fun c => s.answer (onBus c.ip)

/-- WMASK (R154). -/
def execWmask (f : Fam) (k : CtxIndex) (s : State) : Host.Outcome State Fault Refusal :=
  s.onContext k f fun c => s.answer (onBus (~~~c.mask))

/-- WMATCH (R156). Where the command runs, the context's length is the command's (R63), so the candidate is taken at it. -/
def execWmatch (f : Fam) (k : CtxIndex) (s : State) : Host.Outcome State Fault Refusal :=
  s.onContext k f fun c => s.answerFlag (matchFlag (s.opA c.fam) c.mask c.bits)

/-- WFIRST (R159 to R161): the source `src` is read before the destination `dst` is written. -/
def execWfirst (f : Fam) (dst src : CtxIndex) (s : State) : Host.Outcome State Fault Refusal :=
  s.onContext src f fun c => s.derive dst c.first

/-- WLAST (R162, R161): the source `src` is read before the destination `dst` is written. -/
def execWlast (f : Fam) (dst src : CtxIndex) (s : State) : Host.Outcome State Fault Refusal :=
  s.onContext src f fun c => s.derive dst c.last

end Sys2Proof.Machine
end

