-- ==== Sys2Proof/Machine/Dispatch.lean ====
section
/-! DEFINITION. One arm per command, each a direct call of its meaning. -/

namespace Sys2Proof.Machine

def exec (i : Instr) (s : State) : Host.Outcome State Fault Refusal :=
  match i with
  | .not f => Sys2Proof.Machine.execNot f s
  | .and f => Sys2Proof.Machine.execAnd f s
  | .or f => Sys2Proof.Machine.execOr f s
  | .xor f => Sys2Proof.Machine.execXor f s
  | .merge f => Sys2Proof.Machine.execMerge f s
  | .next f => Sys2Proof.Machine.execNext f s
  | .prev f => Sys2Proof.Machine.execPrev f s
  | .wnext f w => Sys2Proof.Machine.execWnext f w s
  | .wprev f w => Sys2Proof.Machine.execWprev f w s
  | .add f men => Sys2Proof.Machine.execAdd f men s
  | .sub f men => Sys2Proof.Machine.execSub f men s
  | .wset f w => Sys2Proof.Machine.execWset f w s
  | .wip f w => Sys2Proof.Machine.execWip f w s
  | .wmask f w => Sys2Proof.Machine.execWmask f w s
  | .wmatch f w => Sys2Proof.Machine.execWmatch f w s
  | .wfirst f w ws => Sys2Proof.Machine.execWfirst f w ws s
  | .wlast f w ws => Sys2Proof.Machine.execWlast f w ws s

end Sys2Proof.Machine
end

