-- ==== Sys2Proof/Machine/Transact.lean ====
section
/-! DEFINITION. One transaction (spec/00_scope.md R16, spec/60_exceptions.md R204): the command word on the port is decoded and
executed, or answered ILLEGAL. -/

namespace Sys2Proof.Machine

/-- The host's list with `t` in front of it. -/
def State.offer (s : State) (t : Transaction) : State := { s with host := t :: s.host }

/-- The host presents `t` on the command port; `rest` is what it has still to issue. -/
def State.present (s : State) (t : Transaction) (rest : List Transaction) : State := { s with port := t, host := rest }

/-- Decode the word on the command port, then execute the command; an illegal word is answered ILLEGAL and nothing else is
looked at (R204 step 1, R205). -/
def State.transact (s : State) : Host.Outcome State Fault Refusal :=
  match decode s.port.cmd with
  | .ok i => exec i s
  | .error _ => .next (s.raise .illegal)

end Sys2Proof.Machine
end

