-- ==== Sys2Proof/Machine/Step.lean ====
section
/-! DEFINITION. One step is one transaction (spec/00_scope.md R16, spec/20_memory.md R50): the host's next transaction comes on
the command port and is answered. -/

namespace Sys2Proof.Machine

/-- The step. With nothing left to issue the run is over and the block stays as it is (spec/70_reset_and_hazards.md R233; log
entry 4). -/
def step (s : State) : Host.Outcome State Fault Refusal :=
  match s.host with
  | [] => .next s
  | t :: rest => (s.present t rest).transact

/-- `s` with the low `nbits` bits of `w` as the command word the host issues next, the operand ports as they stand (log entries 6
and 13). -/
def State.withFetchWord (s : State) (nbits w : Nat) : State := s.offer { s.port with cmd := BitVec.ofNat 16 (w % 2 ^ nbits) }

end Sys2Proof.Machine
end

