-- ==== Sys2Proof/Machine/Composite.lean ====
section
/-! DEFINITION. The pseudo-operations (spec/44_composite_sequences.md R180 to R185): the fixed sequences of transactions a host
issues, the host keeping the results in between. `len` is one `Fam` for every line of a sequence. -/

namespace Sys2Proof.Machine

/-- One line of a program (spec/30_encoding.md R73): the command and its port values, a port the line does not set at 0. -/
def line (i : Instr) (a : Bus := 0) (b : Bus := 0) (m : Bus := 0) : Transaction :=
  { cmd := encode i, aBus := a, bBus := b, mBus := m }

/-- The host issues one transaction now and takes its response. -/
def issue (t : Transaction) (s : State) : Option (Response × State) :=
  match step (s.offer t) with
  | .next s' => s'.responses.getLast?.map fun r => (r, s')
  | .fault _ => none
  | .refused _ => none

/-- BROADCAST (R181). -/
def broadcast (f : Fam) (ip mask : Bus) (s : State) : Option (Bus × State) := do
  let (t, s) ← issue (line (.not f) mask) s
  let (bc, s) ← issue (line (.or f) ip t.r) s
  return (bc.r, s)

/-- NEXTSUBNET: the address of the next network; its mask is the host's copy (R182). -/
def nextSubnet (f : Fam) (ip mask : Bus) (s : State) : Option (Bus × State) := do
  let (bc, s) ← broadcast f ip mask s
  let (ip2, s) ← issue (line (.next f) bc) s
  return (ip2.r, s)

/-- PREVSUBNET: the address of the previous network; its mask is the host's copy (R183). -/
def prevSubnet (f : Fam) (ip mask : Bus) (s : State) : Option (Bus × State) := do
  let (p, s) ← issue (line (.prev f) ip) s
  let (ip2, s) ← issue (line (.and f) p.r mask) s
  return (ip2.r, s)

/-- CONTAINS, with context `k` as its scratch, whose previous value is lost (R184). -/
def contains (f : Fam) (k : CtxIndex) (outerIp outerMask innerIp innerMask : Bus) (s : State) : Option (Bool × State) := do
  let (t1, s) ← issue (line (.not f) outerMask) s
  let (_, s) ← issue (line (.wset f k) outerIp 0 t1.r) s
  let (f1, s) ← issue (line (.wmatch f k) innerIp) s
  let (bc, s) ← broadcast f innerIp innerMask s
  let (f2, s) ← issue (line (.wmatch f k) bc) s
  return (f1.flag && f2.flag, s)

/-- CONTAINS for a host that wants no context (R184): "`AND.len x, outer.mask` for `x = inner.ip`, `x = bc` and
`x = outer.ip`", `bc` being the broadcast address of `inner`, and the host's own comparison of the three results. -/
def containsByAnds (f : Fam) (outerIp outerMask innerIp innerMask : Bus) (s : State) : Option (Bool × State) := do
  let (base, s) ← issue (line (.and f) innerIp outerMask) s
  let (bc, s) ← broadcast f innerIp innerMask s
  let (last, s) ← issue (line (.and f) bc outerMask) s
  let (outer, s) ← issue (line (.and f) outerIp outerMask) s
  return (base.r == outer.r && last.r == outer.r, s)

/-- The loop of FINDWILDCARD over the further addresses: the running AND and the don't-care mask that grows (R185;
spec/90_conflicts.md C3). -/
def findWildcardFold (f : Fam) : (extra : List Bus) → (acc dc : Bus) → State → Option (Bus × Bus × State)
  | [], acc, dc, s => some (acc, dc, s)
  | x :: rest, acc, dc, s => do
    let (t, s) ← issue (line (.xor f) acc x) s
    let (dc', s) ← issue (line (.or f) dc t.r) s
    let (acc', s) ← issue (line (.and f) acc x) s
    findWildcardFold f rest acc'.r dc'.r s

/-- FINDWILDCARD: the result is the value of context `k` (R185). -/
def findWildcard (f : Fam) (k : CtxIndex) (a b : Bus) (extra : List Bus) (s : State) : Option State := do
  let (acc, s) ← issue (line (.and f) a b) s
  let (dc, s) ← issue (line (.xor f) a b) s
  let (acc, dc, s) ← findWildcardFold f extra acc.r dc.r s
  let (_, s) ← issue (line (.wset f k) acc 0 dc) s
  return s

end Sys2Proof.Machine
end

