-- ==== Sys2Proof/Safety.lean ====
section
/-! DEFINITION. The terms claims are stated in: when a run has gone right, what a valid context keeps, which contexts a command
reads and writes, and how a command is issued on its own. -/

namespace Sys2Proof

/-- The context a command reads (spec/60_exceptions.md R204; the table of spec/10_state.md R27, marked there as derived, agrees). -/
def Instr.reads : Instr → Option CtxIndex
  | .not _ | .and _ | .or _ | .xor _ | .merge _ | .next _ | .prev _ | .add _ _ | .sub _ _ | .wset _ _ => none
  | .wnext _ w | .wprev _ w | .wip _ w | .wmask _ w | .wmatch _ w => some w
  | .wfirst _ _ ws | .wlast _ _ ws => some ws

/-- The context a command writes: the table of spec/10_state.md R27, which is marked there as derived. -/
def Instr.writes : Instr → Option CtxIndex
  | .not _ | .and _ | .or _ | .xor _ | .merge _ | .next _ | .prev _ | .add _ _ | .sub _ _ => none
  | .wip _ _ | .wmask _ _ | .wmatch _ _ => none
  | .wset _ w | .wnext _ w | .wprev _ w | .wfirst _ w _ | .wlast _ w _ => some w

/-- Whether a command uses the port A, B, M (spec/30_encoding.md R67). -/
def Instr.usesA : Instr → Bool
  | .not _ | .and _ | .or _ | .xor _ | .merge _ | .next _ | .prev _ | .add _ _ | .sub _ _ | .wset _ _ | .wmatch _ _ => true
  | .wnext _ _ | .wprev _ _ | .wip _ _ | .wmask _ _ | .wfirst _ _ _ | .wlast _ _ _ => false

@[inherit_doc Instr.usesA]
def Instr.usesB : Instr → Bool
  | .and _ | .or _ | .xor _ | .merge _ | .add _ _ | .sub _ _ => true
  | .not _ | .next _ | .prev _ | .wset _ _ | .wmatch _ _ => false
  | .wnext _ _ | .wprev _ _ | .wip _ _ | .wmask _ _ | .wfirst _ _ _ | .wlast _ _ _ => false

@[inherit_doc Instr.usesA]
def Instr.usesM : Instr → Bool
  | .merge _ | .wset _ _ => true
  | .add _ men | .sub _ men => men
  | .not _ | .and _ | .or _ | .xor _ | .next _ | .prev _ | .wmatch _ _ => false
  | .wnext _ _ | .wprev _ _ | .wip _ _ | .wmask _ _ | .wfirst _ _ _ | .wlast _ _ _ => false

end Sys2Proof

namespace Sys2Proof.Machine

/-- A run has gone wrong if any status is not OK (spec/60_exceptions.md R211, spec/70_reset_and_hazards.md R233); log entry 2. -/
def State.allOk (s : State) : Bool := s.responses.all fun r => r.status == .ok

/-- What the value of a valid context keeps: no don't-care bit of `bits` is set (spec/10_state.md R23), and the cursor matches
(R24). -/
def Context.Inv (c : Context) : Prop := c.bits &&& ~~~c.mask = 0#c.fam.bits ∧ c.ip &&& c.mask = c.bits

/-- Every context that holds a value keeps R23 and R24. -/
def State.Inv (s : State) : Prop := ∀ (k : CtxIndex) (c : Context), s.contexts[k] = some c → c.Inv

/-- `matches(x)` (spec/43_wildcard_context.md R157). -/
def Context.Matches (c : Context) (x : BitVec c.fam.bits) : Prop := x &&& c.mask = c.bits

/-- The number of don't-care bits of a context (spec/41_stepper.md R125). -/
def Context.dontCares (c : Context) : Nat := (List.range c.fam.bits).countP fun p => !c.mask.getLsbD p

/-- `s` with these values on the operand ports. -/
def State.withPorts (s : State) (a b m : Bus) : State := { s with port := { s.port with aBus := a, bBus := b, mBus := m } }

/-- The response the command `i` adds in `s` with these values on the operand ports; none where it adds no single one. -/
def reply (i : Instr) (a b m : Bus) (s : State) : Option Response :=
  match exec i (s.withPorts a b m) with
  | .next t => match t.responses.drop s.responses.length with
    | [r] => some r
    | _ => none
  | .fault _ => none
  | .refused _ => none

/-- The command `i` executed `n` times on end. -/
def repeated (i : Instr) : Nat → State → Host.Outcome State Fault Refusal
  | 0, s => .next s
  | n + 1, s =>
    match exec i s with
    | .next t => repeated i n t
    | .fault r => .fault r
    | .refused r => .refused r

/-- A contiguous high-order mask: 1 bits from bit `n-1` downward, then 0 bits (spec/93_implementation_defined.md U3). -/
def ContiguousMask {n : Nat} (m : BitVec n) : Prop := ∀ p q, p ≤ q → q < n → m.getLsbD p = true → m.getLsbD q = true

/-- What WNEXT makes of a cursor `x` under `mask` (spec/41_stepper.md R118, R120): care bits stay; at the lowest don't-care 0,
if there is one, that bit is set, the don't-care bits below it are cleared and the bits above it stay; if there is none, every
don't-care bit is cleared. -/
def SteppedUp {n : Nat} (mask x y : BitVec n) : Prop :=
  (∀ q, q < n → mask.getLsbD q = true → y.getLsbD q = x.getLsbD q) ∧
  ((∃ p, p < n ∧ mask.getLsbD p = false ∧ x.getLsbD p = false ∧ y.getLsbD p = true ∧
      (∀ q, q < p → mask.getLsbD q = false → x.getLsbD q = true ∧ y.getLsbD q = false) ∧
      (∀ q, p < q → q < n → y.getLsbD q = x.getLsbD q)) ∨
   (∀ q, q < n → mask.getLsbD q = false → x.getLsbD q = true ∧ y.getLsbD q = false))

/-- What WPREV makes of a cursor `x` under `mask` (spec/41_stepper.md R122, R124): care bits stay; at the lowest don't-care 1,
if there is one, that bit is cleared, the don't-care bits below it are set and the bits above it stay; if there is none, every
don't-care bit is set. -/
def SteppedDown {n : Nat} (mask x y : BitVec n) : Prop :=
  (∀ q, q < n → mask.getLsbD q = true → y.getLsbD q = x.getLsbD q) ∧
  ((∃ p, p < n ∧ mask.getLsbD p = false ∧ x.getLsbD p = true ∧ y.getLsbD p = false ∧
      (∀ q, q < p → mask.getLsbD q = false → x.getLsbD q = false ∧ y.getLsbD q = true) ∧
      (∀ q, p < q → q < n → y.getLsbD q = x.getLsbD q)) ∨
   (∀ q, q < n → mask.getLsbD q = false → x.getLsbD q = false ∧ y.getLsbD q = true))

/-- `s` with one more response, OK with this result and flag, and nothing else changed. -/
def State.withOk (s : State) (r : Bus) (flag : Bool) : State :=
  { s with responses := s.responses ++ [{ status := .ok, r := r, flag := flag }] }

/-- `s` with one more response, the error `e` with `R = 0` and `FLAG = 0`, and nothing else changed (R203). -/
def State.withError (s : State) (e : Status) : State :=
  { s with responses := s.responses ++ [{ status := e, r := 0, flag := false }] }

/-- `s` with the value `c` in context `k`, and nothing else changed. -/
def State.withContext (s : State) (k : CtxIndex) (c : Context) : State :=
  { s with contexts := s.contexts.set k (some c) }

/-- The encoding of a command and its one error of encoding, at the step (spec/30_encoding.md R62 to R66): a word that has the
code and a legal rest is executed as the command of its fields, and a word that has the code and another rest is answered
ILLEGAL with nothing else changed. -/
def EncodedBy (code : BitVec 5) (legal : Fields → Prop) (command : Fields → Instr) : Prop :=
  ∀ (s : State) (t : Transaction) (rest : List Transaction), s.host = t :: rest → (fieldsOf t.cmd).op = code →
    ((fieldsOf t.cmd).rsv = 0 ∧ legal (fieldsOf t.cmd) →
      step s = exec (command (fieldsOf t.cmd)) { s with port := t, host := rest }) ∧
    (¬((fieldsOf t.cmd).rsv = 0 ∧ legal (fieldsOf t.cmd)) →
      step s = .next (State.withError { s with port := t, host := rest } .illegal))

/-- The errors of a command that reads context `k`, in their order (spec/60_exceptions.md R204, R206, R207): WINVALID where the
context holds no value, whatever the command's length; FAMILY where its length differs; nothing else changed. -/
def ChecksContext (command : Fam → Instr) (k : CtxIndex) : Prop :=
  ∀ (f : Fam) (s : State),
    (s.contexts[k] = none → exec (command f) s = .next (s.withError .winvalid)) ∧
    (∀ c, s.contexts[k] = some c → c.fam ≠ f → exec (command f) s = .next (s.withError .family))

end Sys2Proof.Machine
end

