-- ==== Sys2Proof/Certificates/Slice0/Obligations.lean ====
section
/-! DEFINITION. The statements about the machine, from the numbered rules of spec/. `n` stands for `f.bits`, 32 or 128, and
the operand of length `f` on a port is the port's value modulo `2^n` (R44). A right side `.next (s.withOk r b)` says the whole
next state: one response is added, and every context and every other field is as it was. -/

open Sys2Proof Sys2Proof.Machine

/-! Encoding. -/

/-- Decoding the word of a command gives the command, for every command with every value of its fields (R61 to R66, R71). -/
def Obligations.EncodeThenDecode : Prop := ∀ i : Instr, decode (encode i) = .ok i

/-- Each legal word has one meaning: a word that decodes to a command is that command's word (R61, R71). -/
def Obligations.DecodeThenEncode : Prop := ∀ (c : CmdWord) (i : Instr), decode c = .ok i → encode i = c

/-- R71, and the table of R72, which the spec marks as derived from the fields: a word is the row's command exactly when its bits
under the row's mask are the row's match. -/
def Obligations.DecodeFollowsMatchAndMask : Prop :=
  ∀ (c : CmdWord) (op : Op), (∃ i, decode c = .ok i ∧ i.op = op) ↔ c &&& op.maskWord = op.matchWord

/-- R68: a word is illegal exactly when one of the four tests on its raw fields fails, an illegal word is answered ILLEGAL with
nothing else changed, and exactly 134 words are legal. -/
def Obligations.IllegalWords : Prop :=
  (∀ c : CmdWord, (∃ i, decode c = .ok i) ↔ (fieldsOf c).wellFormed = true) ∧
  (∀ (s : State) (t : Transaction) (rest : List Transaction), s.host = t :: rest → (fieldsOf t.cmd).wellFormed = false →
    step s = .next (State.withError { s with port := t, host := rest } .illegal)) ∧
  (∃ l : List CmdWord, l.Nodup ∧ l.length = 134 ∧ ∀ c : CmdWord, c ∈ l ↔ ∃ i, decode c = .ok i)

/-- The inference of R76, which the spec marks as derived: the worked encodings and the illegal examples. -/
def Obligations.WorkedWordsDecode : Prop :=
  decode 0x0000 = .ok (.not .ipv4) ∧ decode 0x0021 = .ok (.and .ipv6) ∧ decode 0x0044 = .ok (.merge .ipv4) ∧
  decode 0x0008 = .ok (.next .ipv4) ∧ decode 0x0029 = .ok (.prev .ipv6) ∧ decode 0x0010 = .ok (.add .ipv4 false) ∧
  decode 0x0050 = .ok (.add .ipv4 true) ∧ decode 0x0071 = .ok (.sub .ipv6 true) ∧ decode 0x00D8 = .ok (.wset .ipv4 1) ∧
  decode 0x008A = .ok (.wnext .ipv4 1) ∧ decode 0x01BB = .ok (.wmatch .ipv6 3) ∧
  decode 0x031C = .ok (.wfirst .ipv4 2 1) ∧ decode 0x063D = .ok (.wlast .ipv6 0 3) ∧
  (∀ c ∈ [0x0040, 0x0004, 0x0018, 0x0081, 0x020A, 0x0005, 0x0800], ∃ e, decode (c : CmdWord) = .error e)

/-! The step. -/

/-- When the word of the next transaction decodes to `i`, the step presents the transaction and is `i`'s execution (R16, R50). -/
def Obligations.StepRunsDecodedInstruction : Prop :=
  ∀ (s : State) (t : Transaction) (rest : List Transaction) (i : Instr), s.host = t :: rest → decode t.cmd = .ok i →
    step s = exec i { s with port := t, host := rest }

/-- The model's choice (log entry 4): with nothing left to issue, a step leaves everything as it is. -/
def Obligations.StepWithNothingToIssue : Prop := ∀ s : State, s.host = [] → step s = .next s

/-- R40, R50: no step stops. A step with a transaction to issue takes exactly that one off the host's list and adds exactly one
response. -/
def Obligations.EveryTransactionIsAnswered : Prop :=
  ∀ (s : State) (t : Transaction) (rest : List Transaction), s.host = t :: rest →
    ∃ u r, step s = .next u ∧ u.port = t ∧ u.host = rest ∧ u.responses = s.responses ++ [r]

/-- R233, and the inference of R52, which the spec marks as derived: a run of as many steps as there are transactions to issue answers each of them in order of issue, keeps the earlier
responses, and is over; further steps change nothing (log entry 4). -/
def Obligations.RunAnswersTheWholeList : Prop :=
  ∀ s : State, ∃ t : State, ∃ rs : List Response,
    Host.Core.run core s.host.length s = .next t ∧ t.host = [] ∧ t.responses = s.responses ++ rs ∧
    rs.length = s.host.length ∧ ∀ n, Host.Core.run core (s.host.length + n) s = .next t

/-- R38, R220: after reset no context holds a value; the reset event leaves every context so, and nothing else changes. -/
def Obligations.ResetEvent : Prop :=
  (∀ k : CtxIndex, State.reset.contexts[k] = none) ∧
  ∀ s : State, (∀ k : CtxIndex, s.applyReset.contexts[k] = none) ∧
    s.applyReset = { s with contexts := State.reset.contexts }

/-- The inference of R221, which the spec marks as derived: straight after reset the commands that read no context answer OK, with the response they give in any other state; the
commands that read a context answer WINVALID. -/
def Obligations.StraightAfterReset : Prop :=
  ∀ (i : Instr) (a b m : Bus),
    (i.reads = none → ∃ r, reply i a b m State.reset = some r ∧ r.status = .ok ∧ ∀ s, reply i a b m s = some r) ∧
    (i.reads ≠ none → reply i a b m State.reset = some { status := .winvalid, r := 0, flag := false })

/-! The masked bitwise unit. -/

/-- R91 -/
def Obligations.NotComplementsEveryBit : Prop :=
  (∀ (f : Fam) (s : State), ∃ r : Bus, exec (.not f) s = .next (s.withOk r false) ∧
    ∀ p, r.getLsbD p = (decide (p < f.bits) && !s.port.aBus.getLsbD p)) ∧
  EncodedBy 0x00 (fun d => d.men = 0 ∧ d.w = 0 ∧ d.ws = 0) (fun d => .not (famOf d.fam))

/-- R93 -/
def Obligations.AndTakesBothBits : Prop :=
  (∀ (f : Fam) (s : State), ∃ r : Bus, exec (.and f) s = .next (s.withOk r false) ∧
    ∀ p, r.getLsbD p = (decide (p < f.bits) && (s.port.aBus.getLsbD p && s.port.bBus.getLsbD p))) ∧
  EncodedBy 0x01 (fun d => d.men = 0 ∧ d.w = 0 ∧ d.ws = 0) (fun d => .and (famOf d.fam))

/-- R94 -/
def Obligations.OrTakesEitherBit : Prop :=
  (∀ (f : Fam) (s : State), ∃ r : Bus, exec (.or f) s = .next (s.withOk r false) ∧
    ∀ p, r.getLsbD p = (decide (p < f.bits) && (s.port.aBus.getLsbD p || s.port.bBus.getLsbD p))) ∧
  EncodedBy 0x02 (fun d => d.men = 0 ∧ d.w = 0 ∧ d.ws = 0) (fun d => .or (famOf d.fam))

/-- R95 -/
def Obligations.XorTakesDifferingBits : Prop :=
  (∀ (f : Fam) (s : State), ∃ r : Bus, exec (.xor f) s = .next (s.withOk r false) ∧
    ∀ p, r.getLsbD p = (decide (p < f.bits) && (s.port.aBus.getLsbD p ^^ s.port.bBus.getLsbD p))) ∧
  EncodedBy 0x03 (fun d => d.men = 0 ∧ d.w = 0 ∧ d.ws = 0) (fun d => .xor (famOf d.fam))

/-- R97, R98: `b`'s bit where the mask bit is 1, else `a`'s. -/
def Obligations.MergeSelectsByMaskBit : Prop :=
  (∀ (f : Fam) (s : State), ∃ r : Bus, exec (.merge f) s = .next (s.withOk r false) ∧
    ∀ p, r.getLsbD p =
      (decide (p < f.bits) && (if s.port.mBus.getLsbD p then s.port.bBus.getLsbD p else s.port.aBus.getLsbD p))) ∧
  EncodedBy 0x04 (fun d => d.men = 1 ∧ d.w = 0 ∧ d.ws = 0) (fun d => .merge (famOf d.fam))

/-- R90: each lane of a bitwise result is the operation on the same lane of the operands, and no other lane comes in. -/
def Obligations.BitwiseLanesAreIndependent : Prop :=
  ∀ (f : Fam) (s : State) (lane : Bus → Nat → Byte), (∀ p i, lane p i = byteAt f (p.setWidth f.bits) i) →
    ∃ rn ra ro rx rm : Bus,
      exec (.not f) s = .next (s.withOk rn false) ∧ exec (.and f) s = .next (s.withOk ra false) ∧
      exec (.or f) s = .next (s.withOk ro false) ∧ exec (.xor f) s = .next (s.withOk rx false) ∧
      exec (.merge f) s = .next (s.withOk rm false) ∧
      ∀ i, i < f.len →
        lane rn i = 255 - lane s.port.aBus i ∧
        lane ra i = lane s.port.aBus i &&& lane s.port.bBus i ∧
        lane ro i = lane s.port.aBus i ||| lane s.port.bBus i ∧
        lane rx i = lane s.port.aBus i ^^^ lane s.port.bBus i ∧
        lane rm i = (lane s.port.aBus i &&& ~~~lane s.port.mBus i) ||| (lane s.port.bBus i &&& lane s.port.mBus i)

/-- R99, R92: NOT of NOT is the operand, and the complement of an unset mask is unset, so the law holds for it too. -/
def Obligations.NotIsItsOwnInverse : Prop :=
  (∀ (f : Fam) (s : State) (a b m b' m' : Bus), ∃ y : Bus,
    reply (.not f) a b m s = some { status := .ok, r := y, flag := false } ∧
    reply (.not f) y b' m' s = some { status := .ok, r := (a.setWidth f.bits).setWidth 128, flag := false }) ∧
  (∀ (n : Nat) (m : Option (BitVec n)), complement (complement m) = m) ∧
  (∀ n : Nat, complement (none : Option (BitVec n)) = none)

/-! The stepper on a whole address. -/

/-- R111 -/
def Obligations.NextAddsOne : Prop :=
  (∀ (f : Fam) (s : State), ∃ r : Bus, exec (.next f) s = .next (s.withOk r false) ∧
    r.toNat = (s.port.aBus.toNat % 2 ^ f.bits + 1) % 2 ^ f.bits) ∧
  EncodedBy 0x08 (fun d => d.men = 0 ∧ d.w = 0 ∧ d.ws = 0) (fun d => .next (famOf d.fam))

/-- R113 -/
def Obligations.PrevSubtractsOne : Prop :=
  (∀ (f : Fam) (s : State), ∃ r : Bus, exec (.prev f) s = .next (s.withOk r false) ∧
    (r.toNat : Int) = (((s.port.aBus.toNat % 2 ^ f.bits : Nat) : Int) - 1) % 2 ^ f.bits) ∧
  EncodedBy 0x09 (fun d => d.men = 0 ∧ d.w = 0 ∧ d.ws = 0) (fun d => .prev (famOf d.fam))

/-- R112, R114: NEXT and PREV give the results of the byte-by-byte scans, which stop at the first byte that did not wrap. -/
def Obligations.NextAndPrevByteByByte : Prop :=
  ∀ (f : Fam) (s : State),
    exec (.next f) s =
      .next (s.withOk ((ofLanes f (incLanes (lanes f (s.port.aBus.setWidth f.bits))).1).setWidth 128) false) ∧
    exec (.prev f) s =
      .next (s.withOk ((ofLanes f (decLanes (lanes f (s.port.aBus.setWidth f.bits))).1).setWidth 128) false)

/-- R115 -/
def Obligations.NextAndPrevRoundTrip : Prop :=
  ∀ (f : Fam) (s : State) (a b m b' m' : Bus),
    (∃ y : Bus, reply (.next f) a b m s = some { status := .ok, r := y, flag := false } ∧
      reply (.prev f) y b' m' s = some { status := .ok, r := (a.setWidth f.bits).setWidth 128, flag := false }) ∧
    (∃ y : Bus, reply (.prev f) a b m s = some { status := .ok, r := y, flag := false } ∧
      reply (.next f) y b' m' s = some { status := .ok, r := (a.setWidth f.bits).setWidth 128, flag := false })

/-- R116: the wrap at either end, for the address's byte length. -/
def Obligations.NextAndPrevWrap : Prop :=
  ∀ (s : State) (b m : Bus),
    reply (.next .ipv4) 0xFFFFFFFF b m s = some { status := .ok, r := 0, flag := false } ∧
    reply (.next .ipv6) 0xFFFFFFFFFFFFFFFFFFFFFFFFFFFFFFFF b m s = some { status := .ok, r := 0, flag := false } ∧
    reply (.prev .ipv4) 0 b m s = some { status := .ok, r := 0xFFFFFFFF, flag := false } ∧
    reply (.prev .ipv6) 0 b m s = some { status := .ok, r := 0xFFFFFFFFFFFFFFFFFFFFFFFFFFFFFFFF, flag := false }

/-! The masked byte adder. -/

/-- R131, R135: the mask is `M` where `MEN = 1`, and all ones where it is unset. -/
def Obligations.AddIsMaskedSum : Prop :=
  (∀ (f : Fam) (men : Bool) (s : State), ∃ r : Bus, exec (.add f men) s = .next (s.withOk r false) ∧
    r.toNat = (s.port.aBus.toNat % 2 ^ f.bits +
      ((s.port.bBus.toNat % 2 ^ f.bits) &&& (if men then s.port.mBus.toNat % 2 ^ f.bits else 2 ^ f.bits - 1))) % 2 ^ f.bits) ∧
  EncodedBy 0x10 (fun d => d.w = 0 ∧ d.ws = 0) (fun d => .add (famOf d.fam) (d.men == 1))

/-- R133, R135 -/
def Obligations.SubIsMaskedDifference : Prop :=
  (∀ (f : Fam) (men : Bool) (s : State), ∃ r : Bus, exec (.sub f men) s = .next (s.withOk r false) ∧
    (r.toNat : Int) = (((s.port.aBus.toNat % 2 ^ f.bits : Nat) : Int) -
      (((s.port.bBus.toNat % 2 ^ f.bits) &&& (if men then s.port.mBus.toNat % 2 ^ f.bits else 2 ^ f.bits - 1) : Nat) : Int))
        % 2 ^ f.bits) ∧
  EncodedBy 0x11 (fun d => d.w = 0 ∧ d.ws = 0) (fun d => .sub (famOf d.fam) (d.men == 1))

/-- The inference of R132 and R134, which the spec marks as derived: ADD and SUB give the results of the byte-by-byte ripple from lane `L-1` to lane 0, which masked-off lanes pass
on. -/
def Obligations.AddAndSubByteByByte : Prop :=
  ∀ (f : Fam) (men : Bool) (s : State) (me : BitVec f.bits),
    me = (if men then s.port.mBus.setWidth f.bits else BitVec.allOnes f.bits) →
    exec (.add f men) s =
      .next (s.withOk ((ofLanes f (addLanes (lanes f (s.port.aBus.setWidth f.bits)) (lanes f (s.port.bBus.setWidth f.bits))
        (lanes f me)).1).setWidth 128) false) ∧
    exec (.sub f men) s =
      .next (s.withOk ((ofLanes f (subLanes (lanes f (s.port.aBus.setWidth f.bits)) (lanes f (s.port.bBus.setWidth f.bits))
        (lanes f me)).1).setWidth 128) false)

/-- R138: SUB undoes ADD and ADD undoes SUB, under the same mask, set or unset. -/
def Obligations.SubUndoesAdd : Prop :=
  ∀ (f : Fam) (men : Bool) (s : State) (a b m : Bus),
    (∃ y : Bus, reply (.add f men) a b m s = some { status := .ok, r := y, flag := false } ∧
      reply (.sub f men) y b m s = some { status := .ok, r := (a.setWidth f.bits).setWidth 128, flag := false }) ∧
    (∃ y : Bus, reply (.sub f men) a b m s = some { status := .ok, r := y, flag := false } ∧
      reply (.add f men) y b m s = some { status := .ok, r := (a.setWidth f.bits).setWidth 128, flag := false })

/-- The inference of R139, which the spec marks as derived: adding or subtracting 1 with the mask unset is NEXT or PREV. -/
def Obligations.AddOneIsNext : Prop :=
  ∀ (f : Fam) (s : State) (a m b' m' : Bus),
    reply (.add f false) a 1 m s = reply (.next f) a b' m' s ∧ reply (.sub f false) a 1 m s = reply (.prev f) a b' m' s

/-! The wildcard contexts. -/

/-- R151: all five fields of the destination are written; the cursor is `A`, the care bits are the complement of `M`, and `bits`
is `A` on the care bits. No other context changes. -/
def Obligations.WsetConstructs : Prop :=
  (∀ (f : Fam) (k : CtxIndex) (s : State), ∃ c : Context,
    exec (.wset f k) s = .next ((s.withContext k c).withOk 0 false) ∧ c.fam = f ∧
    (∀ p, c.ip.getLsbD p = (decide (p < f.bits) && s.port.aBus.getLsbD p)) ∧
    (∀ p, c.mask.getLsbD p = (decide (p < f.bits) && !s.port.mBus.getLsbD p)) ∧
    (∀ p, c.bits.getLsbD p = (decide (p < f.bits) && (s.port.aBus.getLsbD p && !s.port.mBus.getLsbD p)))) ∧
  EncodedBy 0x18 (fun d => d.men = 1 ∧ d.ws = 0) (fun d => .wset (famOf d.fam) d.w.toFin)

/-- R153 -/
def Obligations.WipReadsTheCursor : Prop :=
  (∀ (k : CtxIndex) (s : State) (c : Context), s.contexts[k] = some c → ∃ r : Bus,
    exec (.wip c.fam k) s = .next (s.withOk r false) ∧ r.toNat = c.ip.toNat) ∧
  (∀ k : CtxIndex, ChecksContext (fun f => .wip f k) k) ∧
  EncodedBy 0x19 (fun d => d.men = 0 ∧ d.ws = 0) (fun d => .wip (famOf d.fam) d.w.toFin)

/-- R154: the complement of the care bits, over the context's `n` bits. -/
def Obligations.WmaskReadsTheWildcardMask : Prop :=
  (∀ (k : CtxIndex) (s : State) (c : Context), s.contexts[k] = some c → ∃ r : Bus,
    exec (.wmask c.fam k) s = .next (s.withOk r false) ∧
    ∀ p, r.getLsbD p = (decide (p < c.fam.bits) && !c.mask.getLsbD p)) ∧
  (∀ k : CtxIndex, ChecksContext (fun f => .wmask f k) k) ∧
  EncodedBy 0x1A (fun d => d.men = 0 ∧ d.ws = 0) (fun d => .wmask (famOf d.fam) d.w.toFin)

/-- R156: `FLAG` is 1 exactly when the candidate agrees with `bits` on `mask`. -/
def Obligations.WmatchComparesCareBits : Prop :=
  (∀ (k : CtxIndex) (s : State) (c : Context), s.contexts[k] = some c → ∃ b : Bool,
    exec (.wmatch c.fam k) s = .next (s.withOk 0 b) ∧
    (b = true ↔ ∀ p, p < c.fam.bits → (s.port.aBus.getLsbD p && c.mask.getLsbD p) = c.bits.getLsbD p)) ∧
  (∀ k : CtxIndex, ChecksContext (fun f => .wmatch f k) k) ∧
  EncodedBy 0x1B (fun d => d.men = 0 ∧ d.ws = 0) (fun d => .wmatch (famOf d.fam) d.w.toFin)

/-- R159 to R161: the destination gets the source's fixed fields and the cursor `bits`, which is the result; the same context as
source and destination included. The destination is not looked at, and no other context changes. -/
def Obligations.WfirstDerives : Prop :=
  (∀ (dst src : CtxIndex) (s : State) (c : Context), s.contexts[src] = some c → ∃ r : Bus,
    exec (.wfirst c.fam dst src) s = .next ((s.withContext dst { c with ip := c.bits }).withOk r false) ∧
    r.toNat = c.bits.toNat) ∧
  (∀ dst src : CtxIndex, ChecksContext (fun f => .wfirst f dst src) src) ∧
  EncodedBy 0x1C (fun d => d.men = 0) (fun d => .wfirst (famOf d.fam) d.w.toFin d.ws.toFin)

/-- R162, R161: the destination gets the source's fixed fields and the cursor `bits OR wildcardMask`, which is the result; the
same context as source and destination included. -/
def Obligations.WlastDerives : Prop :=
  (∀ (dst src : CtxIndex) (s : State) (c : Context), s.contexts[src] = some c →
    ∃ (r : Bus) (y : BitVec c.fam.bits),
    exec (.wlast c.fam dst src) s = .next ((s.withContext dst { c with ip := y }).withOk r false) ∧
    (∀ p, p < c.fam.bits → y.getLsbD p = (c.bits.getLsbD p || !c.mask.getLsbD p)) ∧ r.toNat = y.toNat) ∧
  (∀ dst src : CtxIndex, ChecksContext (fun f => .wlast f dst src) src) ∧
  EncodedBy 0x1D (fun d => d.men = 0) (fun d => .wlast (famOf d.fam) d.w.toFin d.ws.toFin)

/-- R118, R117: the cursor of the context becomes what the scan makes of it, and is the result; the other fields of the context
and the other contexts stay. -/
def Obligations.WnextStepsUp : Prop :=
  (∀ (k : CtxIndex) (s : State) (c : Context), s.contexts[k] = some c →
    ∃ (r : Bus) (y : BitVec c.fam.bits),
    exec (.wnext c.fam k) s = .next ((s.withContext k { c with ip := y }).withOk r false) ∧
    SteppedUp c.mask c.ip y ∧ r.toNat = y.toNat) ∧
  (∀ k : CtxIndex, ChecksContext (fun f => .wnext f k) k) ∧
  EncodedBy 0x0A (fun d => d.men = 0 ∧ d.ws = 0) (fun d => .wnext (famOf d.fam) d.w.toFin)

/-- R122, R117 -/
def Obligations.WprevStepsDown : Prop :=
  (∀ (k : CtxIndex) (s : State) (c : Context), s.contexts[k] = some c →
    ∃ (r : Bus) (y : BitVec c.fam.bits),
    exec (.wprev c.fam k) s = .next ((s.withContext k { c with ip := y }).withOk r false) ∧
    SteppedDown c.mask c.ip y ∧ r.toNat = y.toNat) ∧
  (∀ k : CtxIndex, ChecksContext (fun f => .wprev f k) k) ∧
  EncodedBy 0x0B (fun d => d.men = 0 ∧ d.ws = 0) (fun d => .wprev (famOf d.fam) d.w.toFin)

/-- The inference of R119, which the spec marks as derived: the scan of WNEXT in closed form, for every cursor and mask. -/
def Obligations.WnextClosedForm : Prop :=
  ∀ (k : CtxIndex) (s : State) (c : Context) (y : BitVec c.fam.bits), s.contexts[k] = some c →
    y = ((((c.ip ||| c.mask) + 1#c.fam.bits) &&& ~~~c.mask) ||| (c.ip &&& c.mask)) →
    exec (.wnext c.fam k) s = .next ((s.withContext k { c with ip := y }).withOk (y.setWidth 128) false)

/-- The inference of R123, which the spec marks as derived: the scan of WPREV in closed form, for every cursor and mask. -/
def Obligations.WprevClosedForm : Prop :=
  ∀ (k : CtxIndex) (s : State) (c : Context) (y : BitVec c.fam.bits), s.contexts[k] = some c →
    y = ((((c.ip &&& ~~~c.mask) - 1#c.fam.bits) &&& ~~~c.mask) ||| (c.ip &&& c.mask)) →
    exec (.wprev c.fam k) s = .next ((s.withContext k { c with ip := y }).withOk (y.setWidth 128) false)

/-- R120: when every don't-care bit of the cursor is 1, WNEXT clears them all, which gives `bits` where the cursor matched. -/
def Obligations.WnextWraps : Prop :=
  ∀ (k : CtxIndex) (s : State) (c : Context) (y : BitVec c.fam.bits), s.contexts[k] = some c →
    c.ip ||| c.mask = BitVec.allOnes c.fam.bits → y = c.ip &&& c.mask →
    exec (.wnext c.fam k) s = .next ((s.withContext k { c with ip := y }).withOk (y.setWidth 128) false) ∧
    (c.Inv → y = c.bits)

/-- R124: when every don't-care bit of the cursor is 0, WPREV sets them all, which gives `bits OR wildcardMask` where the cursor
matched. -/
def Obligations.WprevWraps : Prop :=
  ∀ (k : CtxIndex) (s : State) (c : Context) (y : BitVec c.fam.bits), s.contexts[k] = some c →
    c.ip &&& ~~~c.mask = 0#c.fam.bits → y = (c.ip &&& c.mask) ||| ~~~c.mask →
    exec (.wprev c.fam k) s = .next ((s.withContext k { c with ip := y }).withOk (y.setWidth 128) false) ∧
    (c.Inv → y = c.bits ||| ~~~c.mask)

/-- The inference of R121, which the spec marks as derived: with no don't-care bit WNEXT and WPREV leave every context as it is and answer the cursor, with status OK. -/
def Obligations.NoDontCareBitNoStep : Prop :=
  ∀ (k : CtxIndex) (s : State) (c : Context), s.contexts[k] = some c → c.mask = BitVec.allOnes c.fam.bits →
    exec (.wnext c.fam k) s = .next (s.withOk (c.ip.setWidth 128) false) ∧
    exec (.wprev c.fam k) s = .next (s.withOk (c.ip.setWidth 128) false)

/-- R125: from the first cursor, `2^c` WNEXT return to it, where `c` counts the don't-care bits; the cursors on the way are all
different and are exactly the matching addresses. -/
def Obligations.SteppingIsExhaustiveAndCyclic : Prop :=
  ∀ (k : CtxIndex) (s : State) (c : Context), s.contexts[k] = some c → c.Inv → c.ip = c.bits →
    ∃ cursor : Nat → BitVec c.fam.bits,
      (∀ j, ∃ t, repeated (.wnext c.fam k) j s = .next t ∧ t.contexts[k] = some { c with ip := cursor j }) ∧
      cursor 0 = c.bits ∧ cursor (2 ^ c.dontCares) = c.bits ∧
      (∀ i j, i < 2 ^ c.dontCares → j < 2 ^ c.dontCares → cursor i = cursor j → i = j) ∧
      (∀ x, c.Matches x ↔ ∃ j, j < 2 ^ c.dontCares ∧ cursor j = x)

/-- R126: short of the wrap, WNEXT gives the next-higher matching address and WPREV the next-lower one. -/
def Obligations.SteppingIsInAddressOrder : Prop :=
  ∀ (k : CtxIndex) (s : State) (c : Context), s.contexts[k] = some c → c.Inv →
    (c.ip ||| c.mask ≠ BitVec.allOnes c.fam.bits → ∃ y : BitVec c.fam.bits,
      exec (.wnext c.fam k) s = .next ((s.withContext k { c with ip := y }).withOk (y.setWidth 128) false) ∧
      c.Matches y ∧ c.ip.toNat < y.toNat ∧ ∀ z, c.Matches z → c.ip.toNat < z.toNat → y.toNat ≤ z.toNat) ∧
    (c.ip &&& ~~~c.mask ≠ 0#c.fam.bits → ∃ y : BitVec c.fam.bits,
      exec (.wprev c.fam k) s = .next ((s.withContext k { c with ip := y }).withOk (y.setWidth 128) false) ∧
      c.Matches y ∧ y.toNat < c.ip.toNat ∧ ∀ z, c.Matches z → z.toNat < c.ip.toNat → z.toNat ≤ y.toNat)

/-- The inference of R127, which the spec marks as derived: WNEXT and then WPREV, or WPREV and then WNEXT, leave every context as it was. -/
def Obligations.WprevUndoesWnext : Prop :=
  ∀ (k : CtxIndex) (s : State) (c : Context), s.contexts[k] = some c →
    (∃ t u, exec (.wnext c.fam k) s = .next t ∧ exec (.wprev c.fam k) t = .next u ∧ u.contexts = s.contexts) ∧
    (∃ t u, exec (.wprev c.fam k) s = .next t ∧ exec (.wnext c.fam k) t = .next u ∧ u.contexts = s.contexts)

/-- The inference of R128, which the spec marks as derived: with every bit don't-care, WNEXT and WPREV give what NEXT and PREV give for the cursor. -/
def Obligations.PlainSteppingIsTheFullWildcard : Prop :=
  ∀ (k : CtxIndex) (s : State) (c : Context) (a b m b' m' : Bus), s.contexts[k] = some c → c.mask = 0#c.fam.bits →
    reply (.wnext c.fam k) a b m s = reply (.next c.fam) (c.ip.setWidth 128) b' m' s ∧
    reply (.wprev c.fam k) a b m s = reply (.prev c.fam) (c.ip.setWidth 128) b' m' s

/-- The inference of R155, which the spec marks as derived: WMASK returns the wildcard mask WSET was given, on that context and on one derived from it by WFIRST or WLAST. -/
def Obligations.WmaskReturnsWhatWsetWasGiven : Prop :=
  ∀ (f : Fam) (k j : CtxIndex) (s : State) (a b m x y z : Bus), ∃ t u v : State,
    exec (.wset f k) (s.withPorts a b m) = .next t ∧ exec (.wfirst f j k) t = .next u ∧ exec (.wlast f j k) t = .next v ∧
    reply (.wmask f k) x y z t = some { status := .ok, r := (m.setWidth f.bits).setWidth 128, flag := false } ∧
    reply (.wmask f j) x y z u = some { status := .ok, r := (m.setWidth f.bits).setWidth 128, flag := false } ∧
    reply (.wmask f j) x y z v = some { status := .ok, r := (m.setWidth f.bits).setWidth 128, flag := false }

/-- R157: WMATCH answers `matches`, and in a valid context the cursor matches. -/
def Obligations.TheCursorMatches : Prop :=
  ∀ (k : CtxIndex) (s : State) (c : Context) (b m : Bus), s.contexts[k] = some c →
    (∀ x : BitVec c.fam.bits, ∃ q : Bool,
      reply (.wmatch c.fam k) (x.setWidth 128) b m s = some { status := .ok, r := 0, flag := q } ∧
      (q = true ↔ c.Matches x)) ∧
    (c.Inv → reply (.wmatch c.fam k) (c.ip.setWidth 128) b m s = some { status := .ok, r := 0, flag := true })

/-- R163, R164: the addresses WFIRST and WLAST return match, and are the lowest and the highest that do; a WNEXT from the last
gives the first and a WPREV from the first gives the last. -/
def Obligations.FirstAndLastBoundTheMatches : Prop :=
  ∀ (k : CtxIndex) (s : State) (c : Context) (a b m : Bus), s.contexts[k] = some c → c.Inv →
    ∃ lo hi : BitVec c.fam.bits,
      (∀ dst, reply (.wfirst c.fam dst k) a b m s = some { status := .ok, r := lo.setWidth 128, flag := false }) ∧
      (∀ dst, reply (.wlast c.fam dst k) a b m s = some { status := .ok, r := hi.setWidth 128, flag := false }) ∧
      reply (.wmatch c.fam k) (lo.setWidth 128) b m s = some { status := .ok, r := 0, flag := true } ∧
      reply (.wmatch c.fam k) (hi.setWidth 128) b m s = some { status := .ok, r := 0, flag := true } ∧
      (∀ x, c.Matches x → lo.toNat ≤ x.toNat ∧ x.toNat ≤ hi.toNat) ∧
      reply (.wnext c.fam k) a b m (s.withContext k { c with ip := hi }) =
        some { status := .ok, r := lo.setWidth 128, flag := false } ∧
      reply (.wprev c.fam k) a b m (s.withContext k { c with ip := lo }) =
        some { status := .ok, r := hi.setWidth 128, flag := false }

/-! The whole machine. -/

/-- R203: a transaction that ends with an error status changes no context and answers `R = 0` and `FLAG = 0`; the rest of the
state is as after any transaction. -/
def Obligations.ErrorsChangeNothing : Prop :=
  ∀ (s u : State) (t : Transaction) (rest : List Transaction) (r : Response), s.host = t :: rest → step s = .next u →
    u.responses = s.responses ++ [r] → r.status ≠ .ok →
    u = { s with port := t, host := rest, responses := s.responses ++ [r] } ∧ r.r = 0 ∧ r.flag = false

/-- R204, R201: the status is ILLEGAL where the word does not decode; else WINVALID where the command reads a context that holds
no value; else FAMILY where it reads a context of the other length; else OK. The four statuses have the codes 0 to 3. -/
def Obligations.StatusFollowsTheChecks : Prop :=
  (∀ (s : State) (t : Transaction) (rest : List Transaction), s.host = t :: rest →
    ∃ u r, step s = .next u ∧ u.responses = s.responses ++ [r] ∧
      ((∀ i, decode t.cmd ≠ .ok i) → r.status = .illegal) ∧
      (∀ i, decode t.cmd = .ok i → i.reads = none → r.status = .ok) ∧
      (∀ i k, decode t.cmd = .ok i → i.reads = some k → s.contexts[k] = none → r.status = .winvalid) ∧
      (∀ i k c, decode t.cmd = .ok i → i.reads = some k → s.contexts[k] = some c → c.fam ≠ i.fam → r.status = .family) ∧
      (∀ i k c, decode t.cmd = .ok i → i.reads = some k → s.contexts[k] = some c → c.fam = i.fam → r.status = .ok)) ∧
  Status.code .ok = 0 ∧ Status.code .illegal = 1 ∧ Status.code .winvalid = 2 ∧ Status.code .family = 3

/-- R23, R24 (that every command keeps R24 is an inference the spec marks as derived): every step, from any state, keeps the invariants of the valid contexts. -/
def Obligations.StepKeepsContextInvariants : Prop := ∀ s t : State, s.Inv → step s = .next t → t.Inv

/-- R23, R24 hold after reset. -/
def Obligations.ResetMeetsContextInvariants : Prop := State.reset.Inv

/-- The table of R27, which the spec marks as derived from the instruction rules and R203, with R29 and R26: a command changes at
most the context it writes; WNEXT and WPREV change nothing but the cursor of theirs. A command adds one response, and the command
port and the host's list, which the model keeps beside the contexts (log entries 3 and 5), are as they were. -/
def Obligations.CommandsWriteOnlyTheirContext : Prop :=
  (∀ (i : Instr) (s t : State), exec i s = .next t →
    t.port = s.port ∧ t.host = s.host ∧ (∃ r, t.responses = s.responses ++ [r]) ∧
    ∀ j : CtxIndex, i.writes ≠ some j → t.contexts[j] = s.contexts[j]) ∧
  (∀ (i : Instr) (f : Fam) (k : CtxIndex) (s t : State) (c : Context), i = .wnext f k ∨ i = .wprev f k →
    s.contexts[k] = some c → exec i s = .next t → ∃ y, t.contexts[k] = some { c with ip := y })

/-- R30: a context that holds a value keeps holding one, whatever the step. -/
def Obligations.NoContextLosesItsValue : Prop :=
  ∀ (s t : State) (k : CtxIndex), step s = .next t → s.contexts[k] ≠ none → t.contexts[k] ≠ none

/-- R44, R49, R36: the response and the context written depend on nothing but the low `n` bits of the ports the command uses and
the context it reads, which is the one R204 names (`Instr.reads`). -/
def Obligations.OnlyUsedInputsMatter : Prop :=
  ∀ (i : Instr) (s s' t t' : State),
    (i.usesA = true → s.port.aBus.setWidth i.fam.bits = s'.port.aBus.setWidth i.fam.bits) →
    (i.usesB = true → s.port.bBus.setWidth i.fam.bits = s'.port.bBus.setWidth i.fam.bits) →
    (i.usesM = true → s.port.mBus.setWidth i.fam.bits = s'.port.mBus.setWidth i.fam.bits) →
    (∀ k : CtxIndex, i.reads = some k → s.contexts[k] = s'.contexts[k]) →
    exec i s = .next t → exec i s' = .next t' →
    (∃ r, t.responses = s.responses ++ [r] ∧ t'.responses = s'.responses ++ [r]) ∧
    ∀ k : CtxIndex, i.writes = some k → s.contexts[k] = s'.contexts[k] → t.contexts[k] = t'.contexts[k]

/-- The inference of R57, which the spec marks as derived: the reading commands change no context and answer the same again; WSET, WFIRST and WLAST issued twice leave the contexts
as issued once. -/
def Obligations.ReadingAndDerivingAreIdempotent : Prop :=
  ∀ (i : Instr) (s t u : State), exec i s = .next t → exec i t = .next u →
    (i.op ∈ [Op.wip, Op.wmask, Op.wmatch] →
      t.contexts = s.contexts ∧ ∃ r, t.responses = s.responses ++ [r] ∧ u.responses = t.responses ++ [r]) ∧
    (i.op ∈ [Op.wset, Op.wfirst, Op.wlast] → u.contexts = t.contexts)

/-! The composite functions of IPCALC, as the sequences a host issues. In each, every line is answered OK (R180). -/

/-- R181, R182, R183: the results of BROADCAST, NEXTSUBNET and PREVSUBNET for every mask, contiguous or not; no context changes. -/
def Obligations.SubnetSequences : Prop :=
  ∀ (f : Fam) (ipBus maskBus : Bus) (s : State) (ip mask : BitVec f.bits),
    ip = ipBus.setWidth f.bits → mask = maskBus.setWidth f.bits →
    (∃ (t : State) (rs : List Response), (∀ r ∈ rs, r.status = .ok) ∧
      broadcast f ipBus maskBus s = some ((ip ||| ~~~mask).setWidth 128, t) ∧
      t.contexts = s.contexts ∧ t.host = s.host ∧ t.responses = s.responses ++ rs) ∧
    (∃ (t : State) (rs : List Response), (∀ r ∈ rs, r.status = .ok) ∧
      nextSubnet f ipBus maskBus s = some (((ip ||| ~~~mask) + 1#f.bits).setWidth 128, t) ∧
      t.contexts = s.contexts ∧ t.host = s.host ∧ t.responses = s.responses ++ rs) ∧
    (∃ (t : State) (rs : List Response), (∀ r ∈ rs, r.status = .ok) ∧
      prevSubnet f ipBus maskBus s = some (((ip - 1#f.bits) &&& mask).setWidth 128, t) ∧
      t.contexts = s.contexts ∧ t.host = s.host ∧ t.responses = s.responses ++ rs)

/-- R184, in both its forms, the sequence with a scratch context and the one of three ANDs that the host compares: for every
mask, every line is answered OK, the first form writes no context but its scratch, and the second writes none. Where both masks
are contiguous (93_implementation_defined.md U3: nothing is proved of the answer for others), each answers whether `inner`'s base
and broadcast addresses agree with `outer.ip` under `outer.mask`, and where moreover `inner.ip` is the base of its block, whether
`outer` holds every address of `inner`. The membership formula is the spec's own (marked there as from general knowledge). -/
def Obligations.ContainsAnswersContainment : Prop :=
  ∀ (f : Fam) (k : CtxIndex) (oi om ii im : Bus) (s : State) (outerIp outerMask innerIp innerMask : BitVec f.bits),
    outerIp = oi.setWidth f.bits → outerMask = om.setWidth f.bits →
    innerIp = ii.setWidth f.bits → innerMask = im.setWidth f.bits →
    ∃ (q q' : Bool) (t t' : State) (rs rs' : List Response),
      contains f k oi om ii im s = some (q, t) ∧ (∀ r ∈ rs, r.status = .ok) ∧
      (∀ j : CtxIndex, j ≠ k → t.contexts[j] = s.contexts[j]) ∧ t.host = s.host ∧ t.responses = s.responses ++ rs ∧
      containsByAnds f oi om ii im s = some (q', t') ∧ (∀ r ∈ rs', r.status = .ok) ∧
      t'.contexts = s.contexts ∧ t'.host = s.host ∧ t'.responses = s.responses ++ rs' ∧
      (ContiguousMask outerMask → ContiguousMask innerMask → q' = q ∧
        (q = true ↔ innerIp &&& outerMask = outerIp &&& outerMask ∧
          (innerIp ||| ~~~innerMask) &&& outerMask = outerIp &&& outerMask) ∧
        (innerIp &&& ~~~innerMask = 0#f.bits →
          (q = true ↔ ∀ x : BitVec f.bits, x &&& innerMask = innerIp → x &&& outerMask = outerIp &&& outerMask)))

/-- R185: FINDWILDCARD leaves in its context the AND of all the addresses as cursor and `bits`, and the positions where they all
agree as care bits. No other context changes. -/
def Obligations.FindWildcardFolds : Prop :=
  ∀ (f : Fam) (k : CtxIndex) (a b : Bus) (extra : List Bus) (s : State),
    ∃ (c : Context) (t : State) (rs : List Response), (∀ r ∈ rs, r.status = .ok) ∧
      findWildcard f k a b extra s = some t ∧ t.contexts = s.contexts.set k (some c) ∧ t.host = s.host ∧
      t.responses = s.responses ++ rs ∧ c.fam = f ∧ c.bits = c.ip ∧
      (∀ p, p < f.bits → (c.ip.getLsbD p = true ↔ ∀ x ∈ a :: b :: extra, x.getLsbD p = true)) ∧
      (∀ p, p < f.bits → (c.mask.getLsbD p = true ↔ ∀ x ∈ a :: b :: extra, x.getLsbD p = a.getLsbD p))

/-- The inference of R186 (a) and (b), which the spec marks as derived, and (c): every address given to FINDWILDCARD matches the result; any care mask under which they all agree is within the result's
care bits; and a single repeated address gives the wildcard mask 0 and the address itself. -/
def Obligations.FindWildcardIsMostSpecific : Prop :=
  ∀ (f : Fam) (k : CtxIndex) (a b : Bus) (extra : List Bus) (s : State),
    ∃ (c : Context) (t : State), findWildcard f k a b extra s = some t ∧ t.contexts[k] = some c ∧ c.fam = f ∧
      (∀ x ∈ a :: b :: extra, ∀ y z : Bus,
        reply (.wmatch f k) x y z t = some { status := .ok, r := 0, flag := true }) ∧
      (∀ w v : BitVec f.bits, (∀ x ∈ a :: b :: extra, x.setWidth f.bits &&& w = v) →
        ∀ p, w.getLsbD p = true → c.mask.getLsbD p = true) ∧
      ((∀ x ∈ b :: extra, x = a) →
        (∀ p, p < f.bits → c.mask.getLsbD p = true) ∧ (∀ p, p < f.bits → c.ip.getLsbD p = a.getLsbD p))
end

