-- ==== Sys2Proof/Laws/State.lean ====
section
/-! SUPPORT. One lemma per field and update of the state, so that no later proof unfolds a record update. -/

namespace Sys2Proof.Machine

section
variable (s : State) (k : CtxIndex) (c : Context) (r : Response) (v : Bus) (b : Bool) (e : Status)
variable (t : Transaction) (ts : List Transaction)

@[simp] theorem State.setContext_contexts : (s.setContext k c).contexts = s.contexts.set k (some c) := rfl
@[simp] theorem State.setContext_port : (s.setContext k c).port = s.port := rfl
@[simp] theorem State.setContext_host : (s.setContext k c).host = s.host := rfl
@[simp] theorem State.setContext_responses : (s.setContext k c).responses = s.responses := rfl

@[simp] theorem State.respond_contexts : (s.respond r).contexts = s.contexts := rfl
@[simp] theorem State.respond_port : (s.respond r).port = s.port := rfl
@[simp] theorem State.respond_host : (s.respond r).host = s.host := rfl
@[simp] theorem State.respond_responses : (s.respond r).responses = s.responses ++ [r] := rfl

@[simp] theorem State.answer_contexts : (s.answer v).contexts = s.contexts := rfl
@[simp] theorem State.answer_port : (s.answer v).port = s.port := rfl
@[simp] theorem State.answer_host : (s.answer v).host = s.host := rfl
@[simp] theorem State.answer_responses :
    (s.answer v).responses = s.responses ++ [{ status := .ok, r := v, flag := false }] := rfl

@[simp] theorem State.answerFlag_contexts : (s.answerFlag b).contexts = s.contexts := rfl
@[simp] theorem State.answerFlag_port : (s.answerFlag b).port = s.port := rfl
@[simp] theorem State.answerFlag_host : (s.answerFlag b).host = s.host := rfl
@[simp] theorem State.answerFlag_responses :
    (s.answerFlag b).responses = s.responses ++ [{ status := .ok, r := 0, flag := b }] := rfl

@[simp] theorem State.raise_contexts : (s.raise e).contexts = s.contexts := rfl
@[simp] theorem State.raise_port : (s.raise e).port = s.port := rfl
@[simp] theorem State.raise_host : (s.raise e).host = s.host := rfl
@[simp] theorem State.raise_responses :
    (s.raise e).responses = s.responses ++ [{ status := e, r := 0, flag := false }] := rfl

@[simp] theorem State.applyReset_contexts : s.applyReset.contexts = Vector.replicate 4 none := rfl
@[simp] theorem State.applyReset_port : s.applyReset.port = s.port := rfl
@[simp] theorem State.applyReset_host : s.applyReset.host = s.host := rfl
@[simp] theorem State.applyReset_responses : s.applyReset.responses = s.responses := rfl

@[simp] theorem State.offer_contexts : (s.offer t).contexts = s.contexts := rfl
@[simp] theorem State.offer_port : (s.offer t).port = s.port := rfl
@[simp] theorem State.offer_host : (s.offer t).host = t :: s.host := rfl
@[simp] theorem State.offer_responses : (s.offer t).responses = s.responses := rfl

@[simp] theorem State.present_contexts : (s.present t ts).contexts = s.contexts := rfl
@[simp] theorem State.present_port : (s.present t ts).port = t := rfl
@[simp] theorem State.present_host : (s.present t ts).host = ts := rfl
@[simp] theorem State.present_responses : (s.present t ts).responses = s.responses := rfl

@[simp] theorem State.withPorts_contexts (x y z : Bus) : (s.withPorts x y z).contexts = s.contexts := rfl
@[simp] theorem State.withPorts_host (x y z : Bus) : (s.withPorts x y z).host = s.host := rfl
@[simp] theorem State.withPorts_responses (x y z : Bus) : (s.withPorts x y z).responses = s.responses := rfl
@[simp] theorem State.withPorts_opA (x y z : Bus) (f : Fam) : (s.withPorts x y z).opA f = operand f x := rfl
@[simp] theorem State.withPorts_opB (x y z : Bus) (f : Fam) : (s.withPorts x y z).opB f = operand f y := rfl
@[simp] theorem State.withPorts_opM (x y z : Bus) (f : Fam) : (s.withPorts x y z).opM f = operand f z := rfl

end

end Sys2Proof.Machine
end

