-- ==== Sys2Proof/Laws/Ops.lean ====
section
/-! SUPPORT. One lemma for each shared operation, saying once what it can do; later proofs cite these and unfold nothing. -/

namespace Sys2Proof.Machine

/-! Contexts. -/

theorem State.setContext_get (s : State) (k j : CtxIndex) (c : Context) :
    (s.setContext k c).contexts[j] = if j = k then some c else s.contexts[j] := by
  simp only [State.setContext_contexts, Fin.getElem_fin, Vector.getElem_set, Fin.ext_iff, eq_comm (a := (j : Nat))]

theorem State.readContext_none {s : State} {k : CtxIndex} (f : Fam) (h : s.contexts[k] = none) :
    s.readContext k f = .error .winvalid := by
  simp only [State.readContext, State.context, h]

theorem State.readContext_some {s : State} {k : CtxIndex} {c : Context} (f : Fam) (h : s.contexts[k] = some c) :
    s.readContext k f = if c.fam = f then .ok c else .error .family := by
  simp only [State.readContext, State.context, h]

/-- Everything `onContext` can do (R204): the error of an unread context, the error of the other length, or the effect. -/
theorem State.onContext_cases (s : State) (k : CtxIndex) (f : Fam) (effect : Context → State) :
    (s.contexts[k] = none ∧ s.onContext k f effect = .next (s.raise .winvalid)) ∨
    (∃ c, s.contexts[k] = some c ∧ c.fam ≠ f ∧ s.onContext k f effect = .next (s.raise .family)) ∨
    (∃ c, s.contexts[k] = some c ∧ c.fam = f ∧ s.onContext k f effect = .next (effect c)) := by
  rcases h : s.contexts[k] with _ | c
  · exact .inl ⟨rfl, by simp only [State.onContext, State.readContext_none f h]⟩
  · by_cases hf : c.fam = f
    · exact .inr (.inr ⟨c, rfl, hf, by simp only [State.onContext, State.readContext_some f h, hf, if_true]⟩)
    · exact .inr (.inl ⟨c, rfl, hf, by simp only [State.onContext, State.readContext_some f h, hf, if_false]⟩)

theorem State.onContext_none {s : State} {k : CtxIndex} (f : Fam) (effect : Context → State) (h : s.contexts[k] = none) :
    s.onContext k f effect = .next (s.raise .winvalid) := by
  simp only [State.onContext, State.readContext_none f h]

theorem State.onContext_family {s : State} {k : CtxIndex} {c : Context} {f : Fam} (effect : Context → State)
    (h : s.contexts[k] = some c) (hf : c.fam ≠ f) : s.onContext k f effect = .next (s.raise .family) := by
  simp only [State.onContext, State.readContext_some f h, hf, if_false]

theorem State.onContext_ok {s : State} {k : CtxIndex} {c : Context} (effect : Context → State) (h : s.contexts[k] = some c) :
    s.onContext k c.fam effect = .next (effect c) := by
  simp only [State.onContext, State.readContext_some c.fam h, if_true]

/-! Operands and results. -/

theorem operand_getLsbD (f : Fam) (p : Bus) (i : Nat) : (operand f p).getLsbD i = (decide (i < f.bits) && p.getLsbD i) := by
  simp only [operand, BitVec.getLsbD_setWidth]

theorem operand_toNat (f : Fam) (p : Bus) : (operand f p).toNat = p.toNat % 2 ^ f.bits := by
  simp only [operand, BitVec.toNat_setWidth]

theorem Fam.bits_le (f : Fam) : f.bits ≤ 128 := by cases f <;> decide

theorem onBus_toNat (f : Fam) (v : BitVec f.bits) : (onBus v).toNat = v.toNat := by
  have h : v.toNat < 2 ^ 128 := lt_of_lt_of_le v.isLt (Nat.pow_le_pow_right (by decide) (Fam.bits_le f))
  simp only [onBus, BitVec.toNat_setWidth, Nat.mod_eq_of_lt h]

theorem onBus_getLsbD (f : Fam) (v : BitVec f.bits) (i : Nat) : (onBus v).getLsbD i = v.getLsbD i := by
  by_cases h : i < 128
  · simp only [onBus, BitVec.getLsbD_setWidth, h, decide_true, Bool.true_and]
  · simp only [onBus, BitVec.getLsbD_setWidth, h, decide_false, Bool.false_and]
    exact (BitVec.getLsbD_of_ge v i (le_trans (Fam.bits_le f) (not_lt.mp h))).symm

theorem operand_onBus (f : Fam) (v : BitVec f.bits) : operand f (onBus v) = v :=
  BitVec.eq_of_toNat_eq (by rw [operand_toNat, onBus_toNat, Nat.mod_eq_of_lt v.isLt])

theorem truncN_toNat (n : Nat) (x : Int) : ((truncN n x).toNat : Int) = x % 2 ^ n := by
  simp only [truncN, BitVec.toNat_ofInt]
  exact_mod_cast Int.toNat_of_nonneg (Int.emod_nonneg x (by positivity))

/-! The plain arithmetic is that of bit vectors. -/

theorem nextAddress_eq {n : Nat} (a : BitVec n) : nextAddress a = a + 1#n := by
  simp only [nextAddress, truncN, BitVec.ofInt_add, BitVec.ofInt_natCast, BitVec.ofNat_toNat, BitVec.setWidth_eq]
  rfl

theorem prevAddress_eq {n : Nat} (a : BitVec n) : prevAddress a = a - 1#n := by
  simp only [prevAddress, truncN, Int.sub_eq_add_neg, BitVec.ofInt_add, BitVec.ofInt_neg, BitVec.ofInt_natCast,
    BitVec.ofNat_toNat, BitVec.setWidth_eq, BitVec.sub_eq_add_neg]
  rfl

theorem addMasked_eq {n : Nat} (a b me : BitVec n) : addMasked a b me = a + (b &&& me) := by
  simp only [addMasked, truncN, BitVec.ofInt_add, BitVec.ofInt_natCast, BitVec.ofNat_toNat, BitVec.setWidth_eq]

theorem subMasked_eq {n : Nat} (a b me : BitVec n) : subMasked a b me = a - (b &&& me) := by
  simp only [subMasked, truncN, Int.sub_eq_add_neg, BitVec.ofInt_add, BitVec.ofInt_neg, BitVec.ofInt_natCast,
    BitVec.ofNat_toNat, BitVec.setWidth_eq, BitVec.sub_eq_add_neg]

/-! The whole dispatch. -/

/-- Everything a command can do to a state: it changes at most the contexts, and adds one response. -/
theorem exec_cases (i : Instr) (s : State) :
    ∃ cs r, exec i s = .next { s with contexts := cs, responses := s.responses ++ [r] } := by
  have reading (k : CtxIndex) (f : Fam) (effect : Context → State)
      (he : ∀ c, ∃ cs r, effect c = { s with contexts := cs, responses := s.responses ++ [r] }) :
      ∃ cs r, s.onContext k f effect = .next { s with contexts := cs, responses := s.responses ++ [r] } := by
    rcases s.onContext_cases k f effect with ⟨_, h⟩ | ⟨_, _, _, h⟩ | ⟨c, _, _, h⟩
    · exact ⟨_, _, h⟩
    · exact ⟨_, _, h⟩
    · obtain ⟨cs, r, hc⟩ := he c
      exact ⟨cs, r, h.trans (congrArg _ hc)⟩
  cases i with
  | wnext f k => exact reading k f _ fun _ => ⟨_, _, rfl⟩
  | wprev f k => exact reading k f _ fun _ => ⟨_, _, rfl⟩
  | wip f k => exact reading k f _ fun _ => ⟨_, _, rfl⟩
  | wmask f k => exact reading k f _ fun _ => ⟨_, _, rfl⟩
  | wmatch f k => exact reading k f _ fun _ => ⟨_, _, rfl⟩
  | wfirst f k src => exact reading src f _ fun _ => ⟨_, _, rfl⟩
  | wlast f k src => exact reading src f _ fun _ => ⟨_, _, rfl⟩
  | _ => exact ⟨_, _, rfl⟩

/-- A step with a transaction to issue presents it and answers it. -/
theorem step_cons {s : State} {t : Transaction} {rest : List Transaction} (h : s.host = t :: rest) :
    step s = (s.present t rest).transact := by
  simp only [step, h]

/-- A transaction whose word decodes is the command. -/
theorem State.transact_ok {s : State} {i : Instr} (h : decode s.port.cmd = .ok i) : s.transact = exec i s := by
  simp only [State.transact, h]

/-- A transaction whose word does not decode is answered ILLEGAL. -/
theorem State.transact_error {s : State} {e : IllegalWord} (h : decode s.port.cmd = .error e) :
    s.transact = .next (s.raise .illegal) := by
  simp only [State.transact, h]

/-- One line of a sequence: the command is executed with the line's ports, the host's list as it was, and the response it adds
is the host's. -/
theorem issue_line {i : Instr} {a b m : Bus} {s u : State} {r : Response} (hd : decode (encode i) = .ok i)
    (he : exec i (s.present (line i a b m) s.host) = .next (u.respond r)) : issue (line i a b m) s = some (r, u.respond r) := by
  have h : step (s.offer (line i a b m)) = .next (u.respond r) :=
    (step_cons rfl).trans ((State.transact_ok (s := s.present (line i a b m) s.host) hd).trans he)
  simp only [issue, h, State.respond_responses, List.getLast?_append, List.getLast?_singleton, Option.some_or, Option.map_some]

end Sys2Proof.Machine
end

