-- ==== Sys2Proof/Laws/PerInstr.lean ====
section
/-! SUPPORT. Per command: its word lies in its row of the table (spec/30_encoding.md R72) and has legal fields (R68). -/

namespace Sys2Proof

/-- The word of a command has its row's fixed bits, and its fields pass every check of R68. -/
def Laws.TableRow.Statement (i : Instr) : Prop :=
  encode i &&& i.op.maskWord = i.op.matchWord ∧ i.fields.wellFormed = true

theorem Laws.TableRow.not (fam : Fam) : Laws.TableRow.Statement (.not fam) := by
  cases fam <;> constructor <;> decide

theorem Laws.TableRow.and (fam : Fam) : Laws.TableRow.Statement (.and fam) := by
  cases fam <;> constructor <;> decide

theorem Laws.TableRow.or (fam : Fam) : Laws.TableRow.Statement (.or fam) := by
  cases fam <;> constructor <;> decide

theorem Laws.TableRow.xor (fam : Fam) : Laws.TableRow.Statement (.xor fam) := by
  cases fam <;> constructor <;> decide

theorem Laws.TableRow.merge (fam : Fam) : Laws.TableRow.Statement (.merge fam) := by
  cases fam <;> constructor <;> decide

theorem Laws.TableRow.next (fam : Fam) : Laws.TableRow.Statement (.next fam) := by
  cases fam <;> constructor <;> decide

theorem Laws.TableRow.prev (fam : Fam) : Laws.TableRow.Statement (.prev fam) := by
  cases fam <;> constructor <;> decide

theorem Laws.TableRow.wnext (fam : Fam) (w : CtxIndex) : Laws.TableRow.Statement (.wnext fam w) := by
  cases fam <;> constructor <;> revert w <;> decide

theorem Laws.TableRow.wprev (fam : Fam) (w : CtxIndex) : Laws.TableRow.Statement (.wprev fam w) := by
  cases fam <;> constructor <;> revert w <;> decide

theorem Laws.TableRow.add (fam : Fam) (men : Bool) : Laws.TableRow.Statement (.add fam men) := by
  cases fam <;> constructor <;> revert men <;> decide

theorem Laws.TableRow.sub (fam : Fam) (men : Bool) : Laws.TableRow.Statement (.sub fam men) := by
  cases fam <;> constructor <;> revert men <;> decide

theorem Laws.TableRow.wset (fam : Fam) (w : CtxIndex) : Laws.TableRow.Statement (.wset fam w) := by
  cases fam <;> constructor <;> revert w <;> decide

theorem Laws.TableRow.wip (fam : Fam) (w : CtxIndex) : Laws.TableRow.Statement (.wip fam w) := by
  cases fam <;> constructor <;> revert w <;> decide

theorem Laws.TableRow.wmask (fam : Fam) (w : CtxIndex) : Laws.TableRow.Statement (.wmask fam w) := by
  cases fam <;> constructor <;> revert w <;> decide

theorem Laws.TableRow.wmatch (fam : Fam) (w : CtxIndex) : Laws.TableRow.Statement (.wmatch fam w) := by
  cases fam <;> constructor <;> revert w <;> decide

theorem Laws.TableRow.wfirst (fam : Fam) (w ws : CtxIndex) : Laws.TableRow.Statement (.wfirst fam w ws) := by
  cases fam <;> constructor <;> revert w ws <;> decide

theorem Laws.TableRow.wlast (fam : Fam) (w ws : CtxIndex) : Laws.TableRow.Statement (.wlast fam w ws) := by
  cases fam <;> constructor <;> revert w ws <;> decide

end Sys2Proof
end

