-- ==== Sys2Proof/Tests/Slice0.lean ====
section
/-! SUPPORT. Tests: ill-formed fields for each check of WellFormed, a word for each command written out from its row of
spec/30_encoding.md R72, one or two single commands each with the values of spec/95_test_vectors.md, and for each statement
with hypotheses a state and operands that meet them. -/

namespace Sys2Proof.Tests

open Sys2Proof Sys2Proof.Machine

/-! WellFormed refuses an ill-formed term for each of its checks (R68), and accepts WFIRST.4 w2, w1. -/

theorem test_wellFormed_ok : (Fields.mk 0x1C 0 0 2 1 0).wellFormed = true := by decide
theorem test_wellFormed_rsv : (Fields.mk 0x00 0 0 0 0 1).wellFormed = false := by decide
theorem test_wellFormed_op : (Fields.mk 0x05 0 0 0 0 0).wellFormed = false := by decide
theorem test_wellFormed_men_set : (Fields.mk 0x00 0 1 0 0 0).wellFormed = false := by decide
theorem test_wellFormed_men_clear : (Fields.mk 0x18 0 0 0 0 0).wellFormed = false := by decide
theorem test_wellFormed_w : (Fields.mk 0x01 0 0 1 0 0).wellFormed = false := by decide
theorem test_wellFormed_ws : (Fields.mk 0x0A 0 0 0 1 0).wellFormed = false := by decide

/-! One word per command, from the pattern of its row (R72), bit 15 first: `f` is bit 5, `m` bit 6, `w` bits 8 and 7, `s` bits
10 and 9. -/

theorem test_decode_not : decode 0b0000000000100000 = .ok (.not .ipv6) := by decide
theorem test_decode_and : decode 0b0000000000100001 = .ok (.and .ipv6) := by decide
theorem test_decode_or : decode 0b0000000000000010 = .ok (.or .ipv4) := by decide
theorem test_decode_xor : decode 0b0000000000100011 = .ok (.xor .ipv6) := by decide
theorem test_decode_merge : decode 0b0000000001100100 = .ok (.merge .ipv6) := by decide
theorem test_decode_next : decode 0b0000000000001000 = .ok (.next .ipv4) := by decide
theorem test_decode_prev : decode 0b0000000000101001 = .ok (.prev .ipv6) := by decide
theorem test_decode_wnext : decode 0b0000000100001010 = .ok (.wnext .ipv4 2) := by decide
theorem test_decode_wprev : decode 0b0000000010101011 = .ok (.wprev .ipv6 1) := by decide
theorem test_decode_add : decode 0b0000000001010000 = .ok (.add .ipv4 true) := by decide
theorem test_decode_sub : decode 0b0000000000110001 = .ok (.sub .ipv6 false) := by decide
theorem test_decode_wset : decode 0b0000000111011000 = .ok (.wset .ipv4 3) := by decide
theorem test_decode_wip : decode 0b0000000010111001 = .ok (.wip .ipv6 1) := by decide
theorem test_decode_wmask : decode 0b0000000100011010 = .ok (.wmask .ipv4 2) := by decide
theorem test_decode_wmatch : decode 0b0000000110111011 = .ok (.wmatch .ipv6 3) := by decide
theorem test_decode_wfirst : decode 0b0000001100011100 = .ok (.wfirst .ipv4 2 1) := by decide
theorem test_decode_wlast : decode 0b0000011000111101 = .ok (.wlast .ipv6 0 3) := by decide

/-- Words that are no command are refused, each by the name of the test it fails (R71, R76). -/
theorem test_decode_illegal :
    decode 0x0800 = .error .reservedBits ∧ decode 0x0005 = .error .reservedOp ∧ decode 0x0040 = .error .forbiddenMen ∧
    decode 0x0018 = .error .forbiddenMen ∧ decode 0x0081 = .error .forbiddenW ∧ decode 0x020A = .error .forbiddenWs := by
  decide

/-- The word of a table row as the host numbers it. -/
theorem test_decodeTableWord : decodeTableWord 16 0x001D = some (.wlast .ipv4 0 0) ∧ decodeTableWord 16 0x0004 = none ∧
    step (State.reset.withFetchWord 16 0x001D) = .next { State.reset with
      port := { State.reset.port with cmd := 0x001D }, responses := [⟨.winvalid, 0, false⟩] } :=
  ⟨by decide, by decide, rfl⟩

/-! Small states. -/

/-- The 4-byte wildcard 192.0.2.0 with wildcard mask 0.0.0.254 (vector F2) and the cursor `ip`. -/
def wild (ip : BitVec 32) : Context := { fam := .ipv4, ip := ip, bits := 0xC0000200#32, mask := 0xFFFFFF01#32 }

/-- A 16-byte wildcard with wildcard mask `::ff00:0:0:1` and the cursor `2001:db8::1` (vector V1). -/
def wild16 : Context :=
  { fam := .ipv6, ip := 0x20010DB8000000000000000000000001#128, bits := 0x20010DB8000000000000000000000000#128,
    mask := 0xFFFFFFFFFFFFFFFF00FFFFFFFFFFFFFE#128 }

/-- A wildcard for the one address 10.1.2.3 (vector Z1). -/
def single : Context := { fam := .ipv4, ip := 0x0A010203#32, bits := 0x0A010203#32, mask := 0xFFFFFFFF#32 }

/-- The wildcard of every 4-byte address, at 10.1.2.255 (vector Z8). -/
def every : Context := { fam := .ipv4, ip := 0x0A0102FF#32, bits := 0#32, mask := 0#32 }

/-- `w0` holds no value, `w1` is at 192.0.2.6, `w2` at the first address, `w3` at the last. -/
def loaded : State :=
  { State.reset with contexts := #v[none, some (wild 0xC0000206#32), some (wild 0xC0000200#32), some (wild 0xC00002FE#32)] }

/-- `w0` the 16-byte wildcard, `w1` the single address, `w2` every address, `w3` no value. -/
def mixed : State := { State.reset with contexts := #v[some wild16, some single, some every, none] }

/-- A state with one word to issue. -/
def offering (w : CmdWord) : State := loaded.offer { cmd := w, aBus := 0, bBus := 0, mBus := 0 }

/-! Single commands, with the values of spec/95_test_vectors.md. -/

/-- 2.1, garbage above bit 31 -/
theorem test_not_lanes : reply (.not .ipv4) 0xDEADBEEF0000000000000000FFF00000 0x11111111111111111111111111111111 0x11111111111111111111111111111111 loaded = some ⟨.ok, 0x000FFFFF, false⟩ := by decide
/-- 2.1 -/
theorem test_and16 : reply (.and .ipv6) 0x20010DB8AAAABBBB0001000200030004 0xFFFFFFFFFFFFFFFF0000000000000000 0x11111111111111111111111111111111 loaded = some ⟨.ok, 0x20010DB8AAAABBBB0000000000000000, false⟩ := by decide
/-- F3 -/
theorem test_or : reply (.or .ipv4) 0xC0000200 0x000000FF 0x11111111111111111111111111111111 loaded = some ⟨.ok, 0xC00002FF, false⟩ := by decide
/-- F5 -/
theorem test_xor : reply (.xor .ipv4) 0xC0000201 0xC00002FF 0x11111111111111111111111111111111 loaded = some ⟨.ok, 0x000000FE, false⟩ := by decide
/-- 2.1 -/
theorem test_merge : reply (.merge .ipv4) 0xC000024D 0x0A090807 0x0FF0A501 loaded = some ⟨.ok, 0xCA00024D, false⟩ := by decide
/-- 2.2 -/
theorem test_next_carry : reply (.next .ipv4) 0xC000FFFF 0x11111111111111111111111111111111 0x11111111111111111111111111111111 loaded = some ⟨.ok, 0xC0010000, false⟩ := by decide
/-- 2.2, the port corner case -/
theorem test_next_wraps : reply (.next .ipv4) 0x000000000000ABCD00000000FFFFFFFF 0x11111111111111111111111111111111 0x11111111111111111111111111111111 loaded = some ⟨.ok, 0, false⟩ := by decide
/-- 2.2 -/
theorem test_prev_wraps : reply (.prev .ipv4) 0 0x11111111111111111111111111111111 0x11111111111111111111111111111111 loaded = some ⟨.ok, 0xFFFFFFFF, false⟩ := by decide
/-- 2.2 -/
theorem test_prev_borrow : reply (.prev .ipv6) 0x20010DB8000000000000000000000000 0x11111111111111111111111111111111 0x11111111111111111111111111111111 loaded = some ⟨.ok, 0x20010DB7FFFFFFFFFFFFFFFFFFFFFFFF, false⟩ := by decide
/-- 2.3, the vector of conflict C4 -/
theorem test_add_carry_chain : reply (.add .ipv4 true) 0x01FFFF00 0x0000FFFF 0x0000FF00 loaded = some ⟨.ok, 0x0200FE00, false⟩ := by decide
/-- 2.3, the mask unset -/
theorem test_add_unset : reply (.add .ipv4 false) 0xC000020A 0x00000107 0 loaded = some ⟨.ok, 0xC0000311, false⟩ := by decide
/-- 2.3 -/
theorem test_sub_borrow_chain : reply (.sub .ipv4 true) 0x0B01002C 0x01020364 0xFF0000FF loaded = some ⟨.ok, 0x0A00FFC8, false⟩ := by decide
/-- 2.3 -/
theorem test_sub_wraps : reply (.sub .ipv6 false) 1 2 0x11111111111111111111111111111111 loaded = some ⟨.ok, 0xFFFFFFFFFFFFFFFFFFFFFFFFFFFFFFFF, false⟩ := by decide
/-- F2 -/
theorem test_wnext : reply (.wnext .ipv4 1) 0x11111111111111111111111111111111 0x11111111111111111111111111111111 0x11111111111111111111111111111111 loaded = some ⟨.ok, 0xC0000208, false⟩ := by decide
/-- V6: the carry skips 55 care bits -/
theorem test_wnext16_carry : reply (.wnext .ipv6 0) 0x11111111111111111111111111111111 0x11111111111111111111111111111111 0x11111111111111111111111111111111 mixed = some ⟨.ok, 0x20010DB8000000000100000000000000, false⟩ := by decide
/-- R122 -/
theorem test_wprev : reply (.wprev .ipv4 1) 0x11111111111111111111111111111111 0x11111111111111111111111111111111 0x11111111111111111111111111111111 loaded = some ⟨.ok, 0xC0000204, false⟩ := by decide
/-- R124 -/
theorem test_wprev_wraps : reply (.wprev .ipv4 2) 0x11111111111111111111111111111111 0x11111111111111111111111111111111 0x11111111111111111111111111111111 loaded = some ⟨.ok, 0xC00002FE, false⟩ := by decide
/-- R153 -/
theorem test_wip : reply (.wip .ipv4 1) 0x11111111111111111111111111111111 0x11111111111111111111111111111111 0x11111111111111111111111111111111 loaded = some ⟨.ok, 0xC0000206, false⟩ := by decide
/-- F5 -/
theorem test_wmask : reply (.wmask .ipv4 1) 0x11111111111111111111111111111111 0x11111111111111111111111111111111 0x11111111111111111111111111111111 loaded = some ⟨.ok, 0x000000FE, false⟩ := by decide
/-- V10 -/
theorem test_wmatch_yes : reply (.wmatch .ipv6 0) 0x20010DB8000000004200000000000001 0x11111111111111111111111111111111 0x11111111111111111111111111111111 mixed = some ⟨.ok, 0, true⟩ := by decide
/-- V11 -/
theorem test_wmatch_no : reply (.wmatch .ipv6 0) 0x20010DB8000000004200000000010001 0x11111111111111111111111111111111 0x11111111111111111111111111111111 mixed = some ⟨.ok, 0, false⟩ := by decide
/-- R159; the destination holds no value -/
theorem test_wfirst : reply (.wfirst .ipv4 0 1) 0x11111111111111111111111111111111 0x11111111111111111111111111111111 0x11111111111111111111111111111111 loaded = some ⟨.ok, 0xC0000200, false⟩ := by decide
/-- V5 -/
theorem test_wlast16 : reply (.wlast .ipv6 3 0) 0x11111111111111111111111111111111 0x11111111111111111111111111111111 0x11111111111111111111111111111111 mixed = some ⟨.ok, 0x20010DB800000000FF00000000000001, false⟩ := by decide
/-- X1: the cursor keeps the don't-care bits of the address given, `bits` has them cleared. -/
theorem test_wset :
    (match exec (.wset .ipv4 1) (State.reset.withPorts 0xC000024D 0 0x000000FE) with
      | .next t => t.contexts[1]
      | _ => none) =
    some { fam := .ipv4, ip := 0xC000024D#32, bits := 0xC0000201#32, mask := 0xFFFFFF01#32 } := by decide
/-- X7, X8 (conflict C2): the mask is carried over to the destination. -/
theorem test_wfirst_mask :
    (match exec (.wfirst .ipv4 0 1) loaded with
      | .next t => t.contexts[0]
      | _ => none) = some (wild 0xC0000200#32) := by decide
/-- 2.5, row 0x002A -/
theorem test_winvalid : reply (.wnext .ipv6 0) 0x11111111111111111111111111111111 0x11111111111111111111111111111111 0x11111111111111111111111111111111 loaded = some ⟨.winvalid, 0, false⟩ := by decide
/-- 2.5, row 0x00BB -/
theorem test_family : reply (.wmatch .ipv6 1) 0x11111111111111111111111111111111 0x11111111111111111111111111111111 0x11111111111111111111111111111111 loaded = some ⟨.family, 0, false⟩ := by decide
/-- 2.5, row 0x060A: an illegal word on an invalid context is ILLEGAL, and no context changes. -/
theorem test_illegal_first :
    (match step (offering 0x060A) with
      | .next t => some (t.contexts, t.responses, t.host)
      | _ => none) = some (loaded.contexts, [⟨.illegal, 0, false⟩], []) := by decide
/-- An illegal word that is a context-free command but for `RSV` (2.5, row 0x0800). -/
theorem test_illegal_rsv :
    (match step (offering 0x0800) with
      | .next t => t.responses
      | _ => []) = [⟨.illegal, 0, false⟩] := by decide
/-- P2: the broadcast, the next and the previous subnet of 192.0.2.0/24 and 192.0.3.0/24. -/
theorem test_subnets :
    (broadcast .ipv4 0xC0000200 0xFFFFFF00 State.reset).map Prod.fst = some 0xC00002FF ∧
    (nextSubnet .ipv4 0xC0000200 0xFFFFFF00 State.reset).map Prod.fst = some 0xC0000300 ∧
    (prevSubnet .ipv4 0xC0000300 0xFFFFFF00 State.reset).map Prod.fst = some 0xC0000200 := by decide
/-- P2: one true and one false CONTAINS. -/
theorem test_contains :
    (contains .ipv4 3 0xC0000200 0xFFFFFF00 0xC0000280 0xFFFFFF80 State.reset).map Prod.fst = some true ∧
    (contains .ipv4 3 0xC0000200 0xFFFFFF00 0xC0000280 0xFFFFFE00 State.reset).map Prod.fst = some false := by decide
/-- P2: the same two with no context (R184), and by hand one whose base address lies outside. -/
theorem test_containsByAnds :
    (containsByAnds .ipv4 0xC0000200 0xFFFFFF00 0xC0000280 0xFFFFFF80 State.reset).map Prod.fst = some true ∧
    (containsByAnds .ipv4 0xC0000200 0xFFFFFF00 0xC0000280 0xFFFFFE00 State.reset).map Prod.fst = some false ∧
    (containsByAnds .ipv4 0xC0000200 0xFFFFFF00 0xC0000380 0xFFFFFF80 State.reset).map Prod.fst = some false := by decide
/-- P3: FINDWILDCARD over three addresses. -/
theorem test_findWildcard :
    (findWildcard .ipv4 0 0xC0000201 0xC00002FF [0xC0000301] State.reset).map (fun t => t.contexts[0]) =
    some (some { fam := .ipv4, ip := 0xC0000201#32, bits := 0xC0000201#32, mask := 0xFFFFFE01#32 }) := by decide

/-! For each statement with hypotheses, a state and operands that meet them. -/

theorem witness_DecodeThenEncode : decode 0x063D = .ok (.wlast .ipv6 0 3) := by decide
theorem witness_IllegalWords :
    (offering 0xFFFF).host = { cmd := 0xFFFF, aBus := 0, bBus := 0, mBus := 0 } :: [] ∧
    (fieldsOf 0xFFFF).wellFormed = false := by decide
theorem witness_StepRunsDecodedInstruction :
    (offering 0x008A).host = { cmd := 0x008A, aBus := 0, bBus := 0, mBus := 0 } :: [] ∧
    decode 0x008A = .ok (.wnext .ipv4 1) := by decide
theorem witness_StepWithNothingToIssue : loaded.host = [] := by decide
theorem witness_EveryTransactionIsAnswered :
    (offering 0x0800).host = { cmd := 0x0800, aBus := 0, bBus := 0, mBus := 0 } :: [] := by decide
theorem witness_StraightAfterReset : (Instr.wset .ipv4 3).reads = none ∧ (Instr.wlast .ipv6 0 3).reads ≠ none := by decide

/-- A word that has the code and a legal rest, and one that has the code and another rest, each offered by some state. -/
def BothKinds (code : BitVec 5) (legal : Fields → Prop) (w w' : CmdWord) : Prop :=
  (∃ t, (offering w).host = t :: [] ∧ (fieldsOf t.cmd).op = code ∧ (fieldsOf t.cmd).rsv = 0 ∧ legal (fieldsOf t.cmd)) ∧
  (∃ t, (offering w').host = t :: [] ∧ (fieldsOf t.cmd).op = code ∧ ¬((fieldsOf t.cmd).rsv = 0 ∧ legal (fieldsOf t.cmd)))

theorem witness_NotComplementsEveryBit : BothKinds 0x00 (fun d => d.men = 0 ∧ d.w = 0 ∧ d.ws = 0) 0x0020 0x0040 :=
  ⟨⟨_, rfl, by decide⟩, ⟨_, rfl, by decide⟩⟩
theorem witness_AndTakesBothBits : BothKinds 0x01 (fun d => d.men = 0 ∧ d.w = 0 ∧ d.ws = 0) 0x0021 0x0081 :=
  ⟨⟨_, rfl, by decide⟩, ⟨_, rfl, by decide⟩⟩
theorem witness_OrTakesEitherBit : BothKinds 0x02 (fun d => d.men = 0 ∧ d.w = 0 ∧ d.ws = 0) 0x0002 0x0202 :=
  ⟨⟨_, rfl, by decide⟩, ⟨_, rfl, by decide⟩⟩
theorem witness_XorTakesDifferingBits : BothKinds 0x03 (fun d => d.men = 0 ∧ d.w = 0 ∧ d.ws = 0) 0x0023 0x0803 :=
  ⟨⟨_, rfl, by decide⟩, ⟨_, rfl, by decide⟩⟩
theorem witness_MergeSelectsByMaskBit : BothKinds 0x04 (fun d => d.men = 1 ∧ d.w = 0 ∧ d.ws = 0) 0x0044 0x0004 :=
  ⟨⟨_, rfl, by decide⟩, ⟨_, rfl, by decide⟩⟩
theorem witness_NextAddsOne : BothKinds 0x08 (fun d => d.men = 0 ∧ d.w = 0 ∧ d.ws = 0) 0x0008 0x0048 :=
  ⟨⟨_, rfl, by decide⟩, ⟨_, rfl, by decide⟩⟩
theorem witness_PrevSubtractsOne : BothKinds 0x09 (fun d => d.men = 0 ∧ d.w = 0 ∧ d.ws = 0) 0x0029 0x0189 :=
  ⟨⟨_, rfl, by decide⟩, ⟨_, rfl, by decide⟩⟩
theorem witness_AddIsMaskedSum : BothKinds 0x10 (fun d => d.w = 0 ∧ d.ws = 0) 0x0050 0x0210 :=
  ⟨⟨_, rfl, by decide⟩, ⟨_, rfl, by decide⟩⟩
theorem witness_SubIsMaskedDifference : BothKinds 0x11 (fun d => d.w = 0 ∧ d.ws = 0) 0x0031 0x0091 :=
  ⟨⟨_, rfl, by decide⟩, ⟨_, rfl, by decide⟩⟩
theorem witness_WsetConstructs : BothKinds 0x18 (fun d => d.men = 1 ∧ d.ws = 0) 0x00D8 0x0018 :=
  ⟨⟨_, rfl, by decide⟩, ⟨_, rfl, by decide⟩⟩
theorem witness_WipReadsTheCursor : BothKinds 0x19 (fun d => d.men = 0 ∧ d.ws = 0) 0x0099 0x0059 :=
  ⟨⟨_, rfl, by decide⟩, ⟨_, rfl, by decide⟩⟩
theorem witness_WmaskReadsTheWildcardMask : BothKinds 0x1A (fun d => d.men = 0 ∧ d.ws = 0) 0x009A 0x021A :=
  ⟨⟨_, rfl, by decide⟩, ⟨_, rfl, by decide⟩⟩
theorem witness_WmatchComparesCareBits : BothKinds 0x1B (fun d => d.men = 0 ∧ d.ws = 0) 0x009B 0x00DB :=
  ⟨⟨_, rfl, by decide⟩, ⟨_, rfl, by decide⟩⟩
theorem witness_WfirstDerives : BothKinds 0x1C (fun d => d.men = 0) 0x031C 0x005C :=
  ⟨⟨_, rfl, by decide⟩, ⟨_, rfl, by decide⟩⟩
theorem witness_WlastDerives : BothKinds 0x1D (fun d => d.men = 0) 0x039D 0x801D :=
  ⟨⟨_, rfl, by decide⟩, ⟨_, rfl, by decide⟩⟩
theorem witness_WnextStepsUp : BothKinds 0x0A (fun d => d.men = 0 ∧ d.ws = 0) 0x008A 0x020A :=
  ⟨⟨_, rfl, by decide⟩, ⟨_, rfl, by decide⟩⟩
theorem witness_WprevStepsDown : BothKinds 0x0B (fun d => d.men = 0 ∧ d.ws = 0) 0x008B 0x004B :=
  ⟨⟨_, rfl, by decide⟩, ⟨_, rfl, by decide⟩⟩

/-- For the seven commands that read a context: one that holds a value of the command's length, one that holds none, and one of
the other length. -/
theorem witness_ChecksContext :
    loaded.contexts[(1 : CtxIndex)] = some (wild 0xC0000206#32) ∧ loaded.contexts[(0 : CtxIndex)] = none ∧
    mixed.contexts[(0 : CtxIndex)] = some wild16 ∧ wild16.fam ≠ Fam.ipv4 := by decide

theorem witness_BitwiseLanesAreIndependent :
    ∃ lane : Bus → Nat → Byte, ∀ p i, lane p i = byteAt .ipv6 (p.setWidth Fam.ipv6.bits) i := ⟨_, fun _ _ => rfl⟩

/-- The mask unset, and a set mask whose bits above bit 31 do not count. -/
theorem witness_AddAndSubByteByByte :
    (0xFFFFFFFF : BitVec Fam.ipv4.bits) =
      (if false then loaded.port.mBus.setWidth Fam.ipv4.bits else BitVec.allOnes Fam.ipv4.bits) ∧
    (0x0000FF00 : BitVec Fam.ipv4.bits) =
      (if true then (loaded.withPorts 0 0 0xABCD00000000FF00).port.mBus.setWidth Fam.ipv4.bits
        else BitVec.allOnes Fam.ipv4.bits) := by
  decide

theorem wild_inv (ip : BitVec 32) (h : ip &&& 0xFFFFFF01#32 = 0xC0000200#32) : (wild ip).Inv :=
  ⟨(by decide : 0xC0000200#32 &&& ~~~0xFFFFFF01#32 = 0#32), h⟩

theorem witness_WnextClosedForm : loaded.contexts[(3 : CtxIndex)] = some (wild 0xC00002FE#32) ∧
    (0xC0000200#32 : BitVec 32) =
      (((0xC00002FE#32 ||| 0xFFFFFF01#32) + 1#32) &&& ~~~0xFFFFFF01#32) ||| (0xC00002FE#32 &&& 0xFFFFFF01#32) := by decide

theorem witness_WprevClosedForm : loaded.contexts[(2 : CtxIndex)] = some (wild 0xC0000200#32) ∧
    (0xC00002FE#32 : BitVec 32) =
      (((0xC0000200#32 &&& ~~~0xFFFFFF01#32) - 1#32) &&& ~~~0xFFFFFF01#32) ||| (0xC0000200#32 &&& 0xFFFFFF01#32) := by decide

theorem witness_WnextWraps : loaded.contexts[(3 : CtxIndex)] = some (wild 0xC00002FE#32) ∧
    (wild 0xC00002FE#32).ip ||| (wild 0xC00002FE#32).mask = BitVec.allOnes 32 ∧ (wild 0xC00002FE#32).Inv :=
  ⟨by decide, rfl, wild_inv _ (by decide)⟩

theorem witness_WprevWraps : loaded.contexts[(2 : CtxIndex)] = some (wild 0xC0000200#32) ∧
    (wild 0xC0000200#32).ip &&& ~~~(wild 0xC0000200#32).mask = 0#32 ∧ (wild 0xC0000200#32).Inv :=
  ⟨by decide, rfl, wild_inv _ (by decide)⟩

theorem witness_NoDontCareBitNoStep : mixed.contexts[(1 : CtxIndex)] = some single ∧ single.mask = BitVec.allOnes 32 :=
  ⟨by decide, rfl⟩

theorem witness_SteppingIsExhaustiveAndCyclic : loaded.contexts[(2 : CtxIndex)] = some (wild 0xC0000200#32) ∧
    (wild 0xC0000200#32).Inv ∧ (wild 0xC0000200#32).ip = (wild 0xC0000200#32).bits ∧ (wild 0xC0000200#32).dontCares = 7 :=
  ⟨by decide, wild_inv _ (by decide), by decide, by decide⟩

theorem witness_SteppingIsInAddressOrder : loaded.contexts[(1 : CtxIndex)] = some (wild 0xC0000206#32) ∧
    (wild 0xC0000206#32).Inv ∧ (wild 0xC0000206#32).ip ||| (wild 0xC0000206#32).mask ≠ BitVec.allOnes 32 ∧
    (wild 0xC0000206#32).ip &&& ~~~(wild 0xC0000206#32).mask ≠ 0#32 :=
  ⟨by decide, wild_inv _ (by decide), (by decide : 0xC0000206#32 ||| 0xFFFFFF01#32 ≠ BitVec.allOnes 32),
    (by decide : 0xC0000206#32 &&& ~~~0xFFFFFF01#32 ≠ 0#32)⟩

theorem witness_WprevUndoesWnext : mixed.contexts[(0 : CtxIndex)] = some wild16 := by decide

theorem witness_PlainSteppingIsTheFullWildcard : mixed.contexts[(2 : CtxIndex)] = some every ∧ every.mask = 0#32 :=
  ⟨by decide, rfl⟩

theorem witness_TheCursorMatches : loaded.contexts[(1 : CtxIndex)] = some (wild 0xC0000206#32) ∧ (wild 0xC0000206#32).Inv :=
  ⟨by decide, wild_inv _ (by decide)⟩

theorem witness_FirstAndLastBoundTheMatches : loaded.contexts[(1 : CtxIndex)] = some (wild 0xC0000206#32) ∧
    (wild 0xC0000206#32).Inv ∧ (wild 0xC0000206#32).Matches 0xC00002FE#32 :=
  ⟨by decide, wild_inv _ (by decide), by unfold Context.Matches; decide⟩

/-- The error of an unread context, at the step. -/
theorem witness_ErrorsChangeNothing : ∃ t u, (offering 0x000A).host = t :: [] ∧ step (offering 0x000A) = .next u ∧
    u.responses = (offering 0x000A).responses ++ [⟨.winvalid, 0, false⟩] ∧ Status.winvalid ≠ Status.ok :=
  ⟨_, _, rfl, rfl, rfl, by decide⟩

/-- Each of the five cases of the status, on one state. -/
theorem witness_StatusFollowsTheChecks :
    (∀ i, decode 0x060A ≠ .ok i) ∧
    (decode 0x0000 = .ok (.not .ipv4) ∧ (Instr.not .ipv4).reads = none) ∧
    (decode 0x000A = .ok (.wnext .ipv4 0) ∧ (Instr.wnext .ipv4 0).reads = some 0 ∧ loaded.contexts[(0 : CtxIndex)] = none) ∧
    (decode 0x00AA = .ok (.wnext .ipv6 1) ∧ loaded.contexts[(1 : CtxIndex)] = some (wild 0xC0000206#32) ∧
      (wild 0xC0000206#32).fam ≠ (Instr.wnext .ipv6 1).fam) ∧
    (decode 0x008A = .ok (.wnext .ipv4 1) ∧ (wild 0xC0000206#32).fam = (Instr.wnext .ipv4 1).fam) := by
  refine ⟨fun i h => ?_, by decide, by decide, by decide, by decide⟩
  have e : decode 0x060A = .error .forbiddenWs := by decide
  rw [e] at h
  cases h

/-- A state with three valid contexts that keep the invariants. -/
theorem loaded_inv : loaded.Inv := by
  intro k c h
  have hc : c = wild 0xC0000206#32 ∨ c = wild 0xC0000200#32 ∨ c = wild 0xC00002FE#32 := by
    fin_cases k
    · cases h
    · exact .inl (Option.some.inj h).symm
    · exact .inr (.inl (Option.some.inj h).symm)
    · exact .inr (.inr (Option.some.inj h).symm)
  rcases hc with rfl | rfl | rfl <;> exact wild_inv _ (by decide)

theorem witness_StepKeepsContextInvariants : (loaded.offer (line (.wnext .ipv4 3))).Inv ∧
    ∃ t, step (loaded.offer (line (.wnext .ipv4 3))) = .next t := ⟨loaded_inv, _, rfl⟩

theorem witness_CommandsWriteOnlyTheirContext : (∃ t, exec (.wnext .ipv4 1) loaded = .next t) ∧
    (Instr.wnext .ipv4 1).writes ≠ some 2 ∧ loaded.contexts[(1 : CtxIndex)] = some (wild 0xC0000206#32) :=
  ⟨⟨_, rfl⟩, by decide⟩

theorem witness_NoContextLosesItsValue : (∃ t, step (offering 0x0098) = .next t) ∧
    (offering 0x0098).contexts[(1 : CtxIndex)] ≠ none := ⟨⟨_, rfl⟩, by decide⟩

/-- WMATCH.4 on two states that differ above bit 31 of port A, on the other ports and in the contexts it does not read. -/
theorem witness_OnlyUsedInputsMatter :
    (∃ t, exec (.wmatch .ipv4 1) (loaded.withPorts 0xFF00000000 1 2) = .next t) ∧
    (∃ t, exec (.wmatch .ipv4 1) ((loaded.setContext 0 single).withPorts 0 3 4) = .next t) ∧
    (0xFF00000000 : Bus).setWidth Fam.ipv4.bits = (0 : Bus).setWidth Fam.ipv4.bits ∧
    loaded.contexts[(1 : CtxIndex)] = (loaded.setContext 0 single).contexts[(1 : CtxIndex)] :=
  ⟨⟨_, rfl⟩, ⟨_, rfl⟩, by decide, by decide⟩

theorem witness_ReadingAndDerivingAreIdempotent :
    (∃ t u, exec (.wip .ipv4 1) loaded = .next t ∧ exec (.wip .ipv4 1) t = .next u) ∧
    (∃ t u, exec (.wfirst .ipv4 1 1) loaded = .next t ∧ exec (.wfirst .ipv4 1 1) t = .next u) :=
  ⟨⟨_, _, rfl, rfl⟩, ⟨_, _, rfl, rfl⟩⟩

theorem witness_SubnetSequences : (0xC0000200 : BitVec Fam.ipv4.bits) = (0xC0000200 : Bus).setWidth Fam.ipv4.bits := by decide

/-- The masks /24 and /25 are contiguous, and 192.0.2.128 is the base of its /25. -/
theorem witness_ContainsAnswersContainment :
    ContiguousMask (0xFFFFFF00#32) ∧ ContiguousMask (0xFFFFFF80#32) ∧ 0xC0000280#32 &&& ~~~0xFFFFFF80#32 = 0#32 := by
  refine ⟨fun p q hpq hq => ?_, fun p q hpq hq => ?_, by decide⟩
  · have hp : p < 32 := lt_of_le_of_lt hpq hq
    revert hpq
    interval_cases q <;> interval_cases p <;> decide
  · have hp : p < 32 := lt_of_le_of_lt hpq hq
    revert hpq
    interval_cases q <;> interval_cases p <;> decide

/-- Addresses that agree under a mask, and a single repeated address. -/
theorem witness_FindWildcardIsMostSpecific :
    (∀ x ∈ ([0xC0000201, 0xC00002FF, 0xC0000301] : List Bus), x.setWidth 32 &&& 0xFFFFFE01#32 = 0xC0000201#32) ∧
    (∀ x ∈ ([0xC0000201] : List Bus), x = 0xC0000201) := by
  refine ⟨fun x hx => ?_, fun x hx => List.mem_singleton.mp hx⟩
  simp only [List.mem_cons, List.not_mem_nil, or_false] at hx
  rcases hx with rfl | rfl | rfl <;> rfl

end Sys2Proof.Tests
end

section
/-! The scope's statement (spec/00_scope.md): the link from a step to the execution of the decoded command. -/

namespace Sys2Proof.Machine

/-- Settles O6: the step transacts on the presented state, whose command word is the transaction's own. -/
theorem stepRunsDecodedInstruction : Obligations.StepRunsDecodedInstruction := by
  intro s t rest i hhost hdecode
  calc
    step s = (s.present t rest).transact := step_cons hhost
    _ = exec i (s.present t rest) := State.transact_ok hdecode

end Sys2Proof.Machine
end

section
/-! The state's statements (spec/10_state.md): what a step can do to the contexts, and what reset does to them. -/

namespace Sys2Proof.Machine

/-! Writes to the contexts (R27, R28): a context is only ever written with a whole value. -/

/-- From `s` to `t` at most one context is written, the one `w` names, and it then holds a value. -/
def WritesAtMost (w : Option CtxIndex) (s t : State) : Prop :=
  t.contexts = s.contexts ∨ ∃ k c, w = some k ∧ t.contexts = (s.setContext k c).contexts

theorem State.setContext_keeps_value {s : State} {j : CtxIndex} (k : CtxIndex) (c : Context) (h : s.contexts[j] ≠ none) :
    (s.setContext k c).contexts[j] ≠ none := by
  rw [State.setContext_get]
  split
  · exact Option.some_ne_none c
  · exact h

theorem WritesAtMost.keeps_value {w : Option CtxIndex} {s t : State} {j : CtxIndex} (hw : WritesAtMost w s t)
    (h : s.contexts[j] ≠ none) : t.contexts[j] ≠ none := by
  obtain hsame | ⟨k, c, -, hset⟩ := hw
  · rwa [hsame]
  · rw [hset]
    exact State.setContext_keeps_value k c h

theorem State.onContext_writesAtMost {w : Option CtxIndex} {s t : State} {k : CtxIndex} {f : Fam} {effect : Context → State}
    (h : s.onContext k f effect = .next t) (he : ∀ c, WritesAtMost w s (effect c)) : WritesAtMost w s t := by
  rcases s.onContext_cases k f effect with ⟨_, hw⟩ | ⟨_, _, _, hf⟩ | ⟨c, _, _, hc⟩
  · cases hw.symm.trans h
    exact .inl rfl
  · cases hf.symm.trans h
    exact .inl rfl
  · cases hc.symm.trans h
    exact he c

/-- Every command writes at most the context that the table of R27 gives it. -/
theorem exec_writesAtMost {i : Instr} {s t : State} (h : exec i s = .next t) : WritesAtMost i.writes s t := by
  cases i with
  | wset f k =>
    cases h
    exact .inr ⟨k, _, rfl, rfl⟩
  | wnext f k => exact State.onContext_writesAtMost h fun _ => .inr ⟨k, _, rfl, rfl⟩
  | wprev f k => exact State.onContext_writesAtMost h fun _ => .inr ⟨k, _, rfl, rfl⟩
  | wfirst f k src => exact State.onContext_writesAtMost h fun _ => .inr ⟨k, _, rfl, rfl⟩
  | wlast f k src => exact State.onContext_writesAtMost h fun _ => .inr ⟨k, _, rfl, rfl⟩
  | wip f k => exact State.onContext_writesAtMost h fun _ => .inl rfl
  | wmask f k => exact State.onContext_writesAtMost h fun _ => .inl rfl
  | wmatch f k => exact State.onContext_writesAtMost h fun _ => .inl rfl
  | _ =>
    cases h
    exact .inl rfl

theorem State.transact_writesAtMost {s t : State} (h : s.transact = .next t) : ∃ w, WritesAtMost w s t := by
  cases hd : decode s.port.cmd with
  | ok i =>
    rw [State.transact_ok hd] at h
    exact ⟨i.writes, exec_writesAtMost h⟩
  | error e =>
    cases (State.transact_error hd).symm.trans h
    exact ⟨none, .inl rfl⟩

/-- Everything a step can do to the contexts: with nothing to issue, nothing; else what the transaction presented does. -/
theorem step_writesAtMost {s t : State} (h : step s = .next t) : ∃ w, WritesAtMost w s t := by
  cases hh : s.host with
  | nil =>
    simp only [step, hh] at h
    cases h
    exact ⟨none, .inl rfl⟩
  | cons x rest =>
    rw [step_cons hh] at h
    obtain ⟨w, hw⟩ := State.transact_writesAtMost h
    exact ⟨w, by simpa only [WritesAtMost, State.setContext_contexts, State.present_contexts] using hw⟩

/-- Settles O54: a step writes at most one context, and what it writes is a value. -/
theorem noContextLosesItsValue : Obligations.NoContextLosesItsValue := by
  intro s t k h hk
  obtain ⟨w, hw⟩ := step_writesAtMost h
  exact hw.keeps_value hk

/-! Reset (R38, R220). -/

theorem State.reset_contexts : State.reset.contexts = Vector.replicate 4 none := rfl

theorem State.applyReset_eq (s : State) : s.applyReset = { s with contexts := State.reset.contexts } := rfl

theorem State.reset_context (k : CtxIndex) : State.reset.contexts[k] = none := by
  rw [State.reset_contexts]
  exact Vector.getElem_replicate k.isLt

/-- Settles O10: the reset event puts the contexts of the state after reset, four that hold no value, and keeps the rest. -/
theorem resetEvent : Obligations.ResetEvent :=
  ⟨State.reset_context, fun s => ⟨State.reset_context, s.applyReset_eq⟩⟩

end Sys2Proof.Machine
end

section
/-! The ports' statements (spec/20_memory.md): every transaction is answered, and what a command does not use does not matter. -/

namespace Sys2Proof.Machine

/-! Every transaction is answered (R40, R50). -/

/-- Everything a transaction can do to a state, its word legal or not: it changes at most the contexts, and adds one response. -/
theorem State.transact_cases (s : State) :
    ∃ cs r, s.transact = .next { s with contexts := cs, responses := s.responses ++ [r] } := by
  cases hd : decode s.port.cmd with
  | ok i =>
    rw [State.transact_ok hd]
    exact exec_cases i s
  | error e => exact ⟨_, _, State.transact_error hd⟩

/-- Settles O8: the step transacts on the presented state, and a transaction only writes contexts and adds its response. -/
theorem everyTransactionIsAnswered : Obligations.EveryTransactionIsAnswered := by
  intro s t rest hhost
  obtain ⟨cs, r, htransact⟩ := (s.present t rest).transact_cases
  exact ⟨_, r, (step_cons hhost).trans htransact, rfl, rfl, rfl⟩

/-! Only the inputs a command uses matter (R44, R49). -/

/-- From `s` to `t` and from `s'` to `t'` the same response is added, and the context `w` names, where it was the same, is the
same again. -/
def AnswersAlike (w : Option CtxIndex) (s s' t t' : State) : Prop :=
  (∃ r, t.responses = s.responses ++ [r] ∧ t'.responses = s'.responses ++ [r]) ∧
  ∀ k : CtxIndex, w = some k → s.contexts[k] = s'.contexts[k] → t.contexts[k] = t'.contexts[k]

section
variable {w : Option CtxIndex} {s s' t t' : State} {k : CtxIndex} {f : Fam}

theorem AnswersAlike.respond (r : Response) : AnswersAlike w s s' (s.respond r) (s'.respond r) :=
  ⟨⟨r, rfl, rfl⟩, fun _ _ hsame => hsame⟩

theorem AnswersAlike.answer {v v' : Bus} (hv : v = v') : AnswersAlike w s s' (s.answer v) (s'.answer v') := by
  subst hv
  exact .respond _

theorem AnswersAlike.answerFlag {b b' : Bool} (hb : b = b') : AnswersAlike w s s' (s.answerFlag b) (s'.answerFlag b') := by
  subst hb
  exact .respond _

theorem AnswersAlike.setContext_answer {c c' : Context} (v : Bus) (hc : c = c') :
    AnswersAlike (some k) s s' ((s.setContext k c).answer v) ((s'.setContext k c').answer v) := by
  subst hc
  refine ⟨⟨_, rfl, rfl⟩, fun j hj _ => ?_⟩
  cases hj
  simp only [State.answer_contexts, State.setContext_get, if_true]

/-- Where the context read is the same, the checks of R204 come out the same, so only the two effects are left to compare. -/
theorem AnswersAlike.onContext {effect effect' : Context → State} (hread : s.contexts[k] = s'.contexts[k])
    (h : s.onContext k f effect = .next t) (h' : s'.onContext k f effect' = .next t')
    (he : ∀ c, c.fam = f → AnswersAlike w s s' (effect c) (effect' c)) : AnswersAlike w s s' t t' := by
  rcases s.onContext_cases k f effect with ⟨hk, ho⟩ | ⟨c, hk, hf, ho⟩ | ⟨c, hk, rfl, ho⟩ <;> cases ho.symm.trans h
  · cases (State.onContext_none f effect' (hread.symm.trans hk)).symm.trans h'
    exact .respond _
  · cases (State.onContext_family effect' (hread.symm.trans hk) hf).symm.trans h'
    exact .respond _
  · cases (State.onContext_ok effect' (hread.symm.trans hk)).symm.trans h'
    exact he c rfl

/-- An unset mask does not depend on the port (R48, R135). -/
theorem maskOrAll_congr {n : Nat} {men : Bool} {m m' : BitVec n} (h : men = true → m = m') :
    maskOrAll men m = maskOrAll men m' := by
  cases men with
  | false => rfl
  | true => exact h rfl

/-- A command answers alike in two states that agree on the operands it uses and on the context it reads. -/
theorem exec_answersAlike {i : Instr} (hA : i.usesA = true → s.opA i.fam = s'.opA i.fam)
    (hB : i.usesB = true → s.opB i.fam = s'.opB i.fam) (hM : i.usesM = true → s.opM i.fam = s'.opM i.fam)
    (hread : ∀ k : CtxIndex, i.reads = some k → s.contexts[k] = s'.contexts[k])
    (h : exec i s = .next t) (h' : exec i s' = .next t') : AnswersAlike i.writes s s' t t' := by
  cases i with
  | not f =>
    cases h; cases h'
    exact .answer (congrArg (fun a => onBus (~~~a)) (hA rfl))
  | and f =>
    cases h; cases h'
    exact .answer (congrArg₂ (fun a b => onBus (a &&& b)) (hA rfl) (hB rfl))
  | or f =>
    cases h; cases h'
    exact .answer (congrArg₂ (fun a b => onBus (a ||| b)) (hA rfl) (hB rfl))
  | xor f =>
    cases h; cases h'
    exact .answer (congrArg₂ (fun a b => onBus (a ^^^ b)) (hA rfl) (hB rfl))
  | merge f =>
    cases h; cases h'
    exact .answer (congrArg onBus (congr (congrArg₂ mergeBits (hA rfl) (hB rfl)) (hM rfl)))
  | next f =>
    cases h; cases h'
    exact .answer (congrArg (fun a => onBus (nextAddress a)) (hA rfl))
  | prev f =>
    cases h; cases h'
    exact .answer (congrArg (fun a => onBus (prevAddress a)) (hA rfl))
  | add f men =>
    cases h; cases h'
    exact .answer (congrArg onBus (congr (congrArg₂ addMasked (hA rfl) (hB rfl)) (maskOrAll_congr hM)))
  | sub f men =>
    cases h; cases h'
    exact .answer (congrArg onBus (congr (congrArg₂ subMasked (hA rfl) (hB rfl)) (maskOrAll_congr hM)))
  | wset f k =>
    cases h; cases h'
    exact .setContext_answer 0 (congrArg₂ (construct f) (hA rfl) (hM rfl))
  | wnext f k => exact .onContext (hread k rfl) h h' fun _ _ => .setContext_answer _ rfl
  | wprev f k => exact .onContext (hread k rfl) h h' fun _ _ => .setContext_answer _ rfl
  | wip f k => exact .onContext (hread k rfl) h h' fun _ _ => .answer rfl
  | wmask f k => exact .onContext (hread k rfl) h h' fun _ _ => .answer rfl
  | wmatch f k =>
    refine .onContext (hread k rfl) h h' fun c hf => ?_
    subst hf
    exact .answerFlag (congrArg (matchFlag · c.mask c.bits) (hA rfl))
  | wfirst f k src => exact .onContext (hread src rfl) h h' fun _ _ => .setContext_answer _ rfl
  | wlast f k src => exact .onContext (hread src rfl) h h' fun _ _ => .setContext_answer _ rfl

end

/-- Settles O55: the operand of a port is its low `n` bits, and a command works on its operands and the context it reads. -/
theorem onlyUsedInputsMatter : Obligations.OnlyUsedInputsMatter :=
  fun _ _ _ _ _ hA hB hM hread h h' => exec_answersAlike hA hB hM hread h h'

end Sys2Proof.Machine
end

section
/-! The encoding's statements (spec/30_encoding.md): the decoder, the encoder, the match and mask table and the field checks say
the same of every word. -/

namespace Sys2Proof

/-! A word and its six fields determine each other (R61). -/

@[ext] theorem Fields.ext {d e : Fields} (op : d.op = e.op) (fam : d.fam = e.fam) (men : d.men = e.men) (w : d.w = e.w)
    (ws : d.ws = e.ws) (rsv : d.rsv = e.rsv) : d = e := by
  cases d
  simp only at op fam men w ws rsv
  simp only [op, fam, men, w, ws, rsv]

theorem fieldsOf_word (d : Fields) : fieldsOf d.word = d := by
  ext i hi <;> simp only [fieldsOf, Fields.word, BitVec.getElem_extractLsb', BitVec.getLsbD_append] <;> grind

/-- Each field ends where the next begins, so the six joined are the whole word. -/
theorem word_fieldsOf (c : CmdWord) : (fieldsOf c).word = c := by
  unfold fieldsOf Fields.word
  iterate 5 rw [BitVec.extractLsb'_append_extractLsb'_eq_extractLsb' (by decide)]
  exact BitVec.extractLsb'_eq_self

theorem fieldsOf_inj {c c' : CmdWord} : fieldsOf c = fieldsOf c' ↔ c = c' :=
  (Function.LeftInverse.injective word_fieldsOf).eq_iff

theorem fieldsOf_and (c m : CmdWord) :
    fieldsOf (c &&& m) =
      { op := (fieldsOf c).op &&& (fieldsOf m).op, fam := (fieldsOf c).fam &&& (fieldsOf m).fam,
        men := (fieldsOf c).men &&& (fieldsOf m).men, w := (fieldsOf c).w &&& (fieldsOf m).w,
        ws := (fieldsOf c).ws &&& (fieldsOf m).ws, rsv := (fieldsOf c).rsv &&& (fieldsOf m).rsv } := by
  simp only [fieldsOf, BitVec.extractLsb'_and]

/-! The codes (R61, R62). -/

theorem famOf_code (f : Fam) : famOf f.code = f := by cases f <;> rfl

theorem code_famOf (b : BitVec 1) : (famOf b).code = b := by revert b; decide

theorem Op.ofCode_code (op : Op) : Op.ofCode op.code = some op := by cases op <;> rfl

theorem Op.code_of_mem_ofCode (code : BitVec 5) : ∀ op ∈ Op.ofCode code, op.code = code := by revert code; decide

theorem Op.ofCode_eq_some_iff {code : BitVec 5} {op : Op} : Op.ofCode code = some op ↔ code = op.code :=
  ⟨fun h => (Op.code_of_mem_ofCode code op h).symm, fun h => h ▸ op.ofCode_code⟩

/-! What the decoder accepts (R71). -/

/-- The fields are a legal encoding of `op`: they hold its code and pass the other tests of R71. -/
structure Op.Accepts (op : Op) (d : Fields) : Prop where
  /-- R66 -/
  rsv : d.rsv = 0
  /-- R62 -/
  code : d.op = op.code
  /-- R64 -/
  men : op.allowsMen d.men = true
  /-- R65 -/
  w : op.namesW = true ∨ d.w = 0
  /-- R65 -/
  ws : op.namesWs = true ∨ d.ws = 0

theorem decodeOp_eq_ok_iff {op : Op} {d : Fields} {i : Instr} :
    decodeOp op d = .ok i ↔
      (op.allowsMen d.men = true ∧ (op.namesW = true ∨ d.w = 0) ∧ (op.namesWs = true ∨ d.ws = 0)) ∧ op.command d = i := by
  unfold decodeOp
  split_ifs <;> simp_all [← Bool.not_eq_true, or_iff_not_imp_left]

/-- Everything the decoder answers with a command: an operation accepts the fields, and the command is its command of them. -/
theorem decode_eq_ok_iff {c : CmdWord} {i : Instr} :
    decode c = .ok i ↔ ∃ op : Op, op.Accepts (fieldsOf c) ∧ op.command (fieldsOf c) = i := by
  constructor
  · intro h
    simp only [decode] at h
    split at h
    · cases h
    · next hrsv =>
      split at h
      · cases h
      · next op hop =>
        obtain ⟨⟨hmen, hw, hws⟩, hi⟩ := decodeOp_eq_ok_iff.mp h
        exact ⟨op, ⟨by simpa using hrsv, Op.ofCode_eq_some_iff.mp hop, hmen, hw, hws⟩, hi⟩
  · rintro ⟨op, ⟨hrsv, hcode, hmen, hw, hws⟩, hi⟩
    simp only [decode, hrsv, bne_self_eq_false, Bool.false_eq_true, if_false, Op.ofCode_eq_some_iff.mpr hcode]
    exact decodeOp_eq_ok_iff.mpr ⟨⟨hmen, hw, hws⟩, hi⟩

/-! A command's fields, and the command of the fields (R61 to R66). -/

theorem Op.command_op (op : Op) (d : Fields) : (op.command d).op = op := by cases op <;> rfl

theorem Op.command_fam (op : Op) (d : Fields) : (op.command d).fam = famOf d.fam := by cases op <;> rfl

theorem Instr.fields_op (i : Instr) : i.fields.op = i.op.code := by cases i <;> rfl

theorem Instr.fields_fam (i : Instr) : i.fields.fam = i.fam.code := by cases i <;> rfl

theorem Instr.fields_rsv (i : Instr) : i.fields.rsv = 0 := by cases i <;> rfl

theorem ofBool_beq_one (b : Bool) : (BitVec.ofBool b == 1#1) = b := by cases b <;> rfl

theorem ofBool_of_beq_one (men : BitVec 1) : BitVec.ofBool (men == 1#1) = men := by revert men; decide

theorem Instr.accepts_fields (i : Instr) : i.op.Accepts i.fields where
  rsv := i.fields_rsv
  code := i.fields_op
  men := by cases i <;> rfl
  w := by cases i <;> simp [Instr.op, Op.namesW, Instr.fields]
  ws := by cases i <;> simp [Instr.op, Op.namesWs, Instr.fields]

theorem Instr.command_fields (i : Instr) : i.op.command i.fields = i := by
  cases i <;> simp [Instr.fields, Instr.op, Op.command, Instr.fam, famOf_code, ofBool_beq_one]

/-- The only `MEN` allowed is the one the encoder writes; where both are allowed, the command keeps it. -/
theorem Op.fields_command_men {op : Op} {d : Fields} (h : op.allowsMen d.men = true) : (op.command d).fields.men = d.men := by
  cases op with
  | add => exact ofBool_of_beq_one d.men
  | sub => exact ofBool_of_beq_one d.men
  | _ => exact (beq_iff_eq.mp h).symm

theorem Op.fields_command_w (op : Op) (d : Fields) : (op.command d).fields.w = if op.namesW then d.w else 0 := by
  cases op <;> rfl

theorem Op.fields_command_ws (op : Op) (d : Fields) : (op.command d).fields.ws = if op.namesWs then d.ws else 0 := by
  cases op <;> rfl

theorem Op.Accepts.fields_command {op : Op} {d : Fields} (h : op.Accepts d) : (op.command d).fields = d := by
  obtain ⟨hrsv, hcode, hmen, hw, hws⟩ := h
  apply Fields.ext
  · rw [Instr.fields_op, Op.command_op, hcode]
  · rw [Instr.fields_fam, Op.command_fam, code_famOf]
  · exact Op.fields_command_men hmen
  · rw [Op.fields_command_w]
    exact ite_eq_left_iff.mpr fun hfixed => (hw.resolve_left hfixed).symm
  · rw [Op.fields_command_ws]
    exact ite_eq_left_iff.mpr fun hfixed => (hws.resolve_left hfixed).symm
  · rw [Instr.fields_rsv, hrsv]

/-- Settles O1: the fields of the word of a command are the command's, its operation accepts them, and its command of them is it. -/
theorem encodeThenDecode : Obligations.EncodeThenDecode := by
  intro i
  refine decode_eq_ok_iff.mpr ⟨i.op, ?_⟩
  rw [encode, fieldsOf_word]
  exact ⟨i.accepts_fields, i.command_fields⟩

/-- Settles O2: accepted fields are the fields of the command they give, and six fields are one word. -/
theorem decodeThenEncode : Obligations.DecodeThenEncode := by
  intro c i h
  obtain ⟨op, haccepts, rfl⟩ := decode_eq_ok_iff.mp h
  rw [encode, haccepts.fields_command, word_fieldsOf]

theorem decode_eq_ok_iff_encode {c : CmdWord} {i : Instr} : decode c = .ok i ↔ encode i = c :=
  ⟨decodeThenEncode c i, fun h => h ▸ encodeThenDecode i⟩

theorem encode_injective : Function.Injective encode := fun i _ h =>
  Except.ok.inj ((encodeThenDecode i).symm.trans (decode_eq_ok_iff_encode.mpr h.symm))

/-! The match and mask table (R72). -/

theorem Op.fieldsOf_matchWord (op : Op) :
    fieldsOf op.matchWord =
      { op := op.code, fam := 0, men := if op.allowsMen 0 then 0 else 1, w := 0, ws := 0, rsv := 0 } := by
  cases op <;> rfl

/-- The free bits, cleared in the mask: FAM for all, MEN where both values are allowed, W and WS where they name a context. -/
theorem Op.fieldsOf_maskWord (op : Op) :
    fieldsOf op.maskWord =
      { op := .allOnes 5, fam := 0, men := if op.allowsMen 0 && op.allowsMen 1 then 0 else 1,
        w := if op.namesW then 0 else .allOnes 2, ws := if op.namesWs then 0 else .allOnes 2, rsv := .allOnes 5 } := by
  cases op <;> rfl

/-- A field that is free in a row has no fixed bits; one that must be 0 has them all. -/
theorem and_fixedBits_eq_zero_iff {n : Nat} {x : BitVec n} {free : Bool} :
    x &&& (if free then 0 else .allOnes n) = 0 ↔ free = true ∨ x = 0 := by
  cases free <;> simp

/-- The row of an operation allows the same `MEN` as R64. -/
theorem Op.and_fixedMen_iff (op : Op) (men : BitVec 1) :
    men &&& (if op.allowsMen 0 && op.allowsMen 1 then 0 else 1) = (if op.allowsMen 0 then 0 else 1) ↔
      op.allowsMen men = true := by
  cases op <;> revert men <;> decide

theorem Op.accepts_iff_and_maskWord {op : Op} {c : CmdWord} :
    op.Accepts (fieldsOf c) ↔ c &&& op.maskWord = op.matchWord := by
  rw [← fieldsOf_inj, fieldsOf_and, op.fieldsOf_maskWord, op.fieldsOf_matchWord, Fields.ext_iff]
  simp only [BitVec.and_allOnes, op.and_fixedMen_iff, and_fixedBits_eq_zero_iff]
  exact ⟨fun ⟨hrsv, hcode, hmen, hw, hws⟩ => ⟨hcode, BitVec.and_zero, hmen, hw, hws, hrsv⟩,
    fun ⟨hcode, _, hmen, hw, hws, hrsv⟩ => ⟨hrsv, hcode, hmen, hw, hws⟩⟩

/-- Settles O3: taken field by field, the row's mask and match are the tests by which the operation accepts the word. -/
theorem decodeFollowsMatchAndMask : Obligations.DecodeFollowsMatchAndMask := by
  intro c op
  rw [← Op.accepts_iff_and_maskWord]
  constructor
  · rintro ⟨i, hdecode, rfl⟩
    obtain ⟨op, haccepts, rfl⟩ := decode_eq_ok_iff.mp hdecode
    rwa [op.command_op]
  · intro haccepts
    exact ⟨_, decode_eq_ok_iff.mpr ⟨op, haccepts, rfl⟩, op.command_op _⟩

/-! The tests of R68 on the raw fields: for the code of an operation they are that operation's tests. -/

theorem Fields.opOk_iff {d : Fields} : d.opOk = true ↔ ∃ op : Op, d.op = op.code := by
  have hcodes : d.opOk = (Op.ofCode d.op).isSome := by
    unfold Fields.opOk
    generalize d.op = code
    revert code
    decide
  simp only [hcodes, Option.isSome_iff_exists, Op.ofCode_eq_some_iff]

section
variable {op : Op} {d : Fields} (h : d.op = op.code)
include h

theorem Fields.menOk_of_code : d.menOk = op.allowsMen d.men := by
  rw [Fields.menOk, h]
  cases op <;> rfl

theorem Fields.wOk_of_code : d.wOk = (op.namesW || d.w == 0) := by
  rw [Fields.wOk, h]
  cases op <;> rfl

theorem Fields.wsOk_of_code : d.wsOk = (op.namesWs || d.ws == 0) := by
  rw [Fields.wsOk, h]
  cases op <;> rfl

end

theorem Fields.wellFormed_iff {d : Fields} : d.wellFormed = true ↔ ∃ op : Op, op.Accepts d := by
  simp only [Fields.wellFormed, Bool.and_eq_true, Fields.opOk_iff, Fields.rsvOk]
  constructor
  · rintro ⟨⟨⟨⟨hrsv, op, hcode⟩, hmen⟩, hw⟩, hws⟩
    rw [menOk_of_code hcode] at hmen
    rw [wOk_of_code hcode] at hw
    rw [wsOk_of_code hcode] at hws
    exact ⟨op, by simpa using hrsv, hcode, hmen, by simpa using hw, by simpa using hws⟩
  · rintro ⟨op, hrsv, hcode, hmen, hw, hws⟩
    rw [menOk_of_code hcode, wOk_of_code hcode, wsOk_of_code hcode]
    exact ⟨⟨⟨⟨by simpa using hrsv, op, hcode⟩, hmen⟩, by simpa using hw⟩, by simpa using hws⟩

theorem decode_ok_iff_wellFormed (c : CmdWord) : (∃ i, decode c = .ok i) ↔ (fieldsOf c).wellFormed = true := by
  simp only [decode_eq_ok_iff, Fields.wellFormed_iff]
  exact ⟨fun ⟨_, op, h, _⟩ => ⟨op, h⟩, fun ⟨op, h⟩ => ⟨_, op, h, rfl⟩⟩

/-! The count of R68. -/

/-- The 17 operations (R62). -/
def Op.all : List Op :=
  [.not, .and, .or, .xor, .merge, .next, .prev, .wnext, .wprev, .add, .sub, .wset, .wip, .wmask, .wmatch, .wfirst, .wlast]

/-- The commands of an operation at one length, one for each value of the other fields it leaves free (R64, R65). -/
def Op.commandsAt (f : Fam) : Op → List Instr
  | .not => [.not f]
  | .and => [.and f]
  | .or => [.or f]
  | .xor => [.xor f]
  | .merge => [.merge f]
  | .next => [.next f]
  | .prev => [.prev f]
  | .wnext => (List.finRange 4).map (.wnext f)
  | .wprev => (List.finRange 4).map (.wprev f)
  | .add => [.add f false, .add f true]
  | .sub => [.sub f false, .sub f true]
  | .wset => (List.finRange 4).map (.wset f)
  | .wip => (List.finRange 4).map (.wip f)
  | .wmask => (List.finRange 4).map (.wmask f)
  | .wmatch => (List.finRange 4).map (.wmatch f)
  | .wfirst => (List.finRange 4).flatMap fun w => (List.finRange 4).map (.wfirst f w)
  | .wlast => (List.finRange 4).flatMap fun w => (List.finRange 4).map (.wlast f w)

/-- The commands of an operation: both lengths are legal for every one (R63). -/
def Op.commands (op : Op) : List Instr := op.commandsAt .ipv4 ++ op.commandsAt .ipv6

theorem Op.mem_all (op : Op) : op ∈ Op.all := by cases op <;> decide

theorem Instr.mem_commands (i : Instr) : i ∈ i.op.commands := by
  have hfam : i ∈ i.op.commandsAt i.fam := by cases i <;> simp [Instr.op, Instr.fam, Op.commandsAt]
  cases h : i.fam <;> rw [h] at hfam
  · exact List.mem_append_left _ hfam
  · exact List.mem_append_right _ hfam

theorem Op.op_of_mem_commands (op : Op) : ∀ i ∈ op.commands, i.op = op := by
  cases op <;> decide

theorem Op.commands_nodup (op : Op) : op.commands.Nodup := by
  cases op <;> decide

/-- Every command (R62 to R65). -/
def Instr.all : List Instr := Op.all.flatMap Op.commands

theorem Instr.all_length : Instr.all.length = 134 := by rfl

theorem Instr.all_nodup : Instr.all.Nodup := by
  refine List.nodup_flatMap.mpr ⟨fun op _ => op.commands_nodup, ?_⟩
  have hall : Op.all.Nodup := by decide
  refine hall.imp fun hne i hi hi' => hne ?_
  rw [← Op.op_of_mem_commands _ i hi, Op.op_of_mem_commands _ i hi']

theorem Instr.mem_all (i : Instr) : i ∈ Instr.all := List.mem_flatMap.mpr ⟨i.op, i.op.mem_all, i.mem_commands⟩

theorem mem_map_encode_all (c : CmdWord) : c ∈ Instr.all.map encode ↔ ∃ i, decode c = .ok i := by
  simp only [List.mem_map, Instr.mem_all, true_and, decode_eq_ok_iff_encode]

end Sys2Proof

namespace Sys2Proof.Machine

/-- A step on a word that does not decode answers ILLEGAL, and changes no context (R205). -/
theorem step_illegal {s : State} {t : Transaction} {rest : List Transaction} (hhost : s.host = t :: rest)
    (hillegal : ¬∃ i, decode t.cmd = .ok i) :
    step s = .next (State.withError { s with port := t, host := rest } .illegal) := by
  cases hdecode : decode t.cmd with
  | ok i => exact absurd ⟨i, hdecode⟩ hillegal
  | error e => exact (step_cons hhost).trans (State.transact_error hdecode)

/-- Settles O4: the raw tests are those of the operation of the code, and the legal words are the words of the 134 commands. -/
theorem illegalWords : Obligations.IllegalWords := by
  refine ⟨decode_ok_iff_wellFormed, fun s t rest hhost hillformed => ?_, Instr.all.map encode, ?_, ?_, mem_map_encode_all⟩
  · refine step_illegal hhost fun hlegal => ?_
    rw [decode_ok_iff_wellFormed, hillformed] at hlegal
    cases hlegal
  · exact Instr.all_nodup.map encode_injective
  · exact (List.length_map encode).trans Instr.all_length

end Sys2Proof.Machine
end

section
/-! Shared rules for the statements about single commands: the encoding of an operation at the step, and the reply to one
command. -/

namespace Sys2Proof

theorem Op.code_injective : Function.Injective Op.code := fun op _ h =>
  Option.some.inj (op.ofCode_code.symm.trans (Op.ofCode_eq_some_iff.mpr h))

theorem Op.accepts_iff_of_code {op : Op} {d : Fields} (hcode : d.op = op.code) :
    op.Accepts d ↔
      d.rsv = 0 ∧ op.allowsMen d.men = true ∧ (op.namesW = true ∨ d.w = 0) ∧ (op.namesWs = true ∨ d.ws = 0) :=
  ⟨fun ⟨hrsv, _, hmen, hw, hws⟩ => ⟨hrsv, hmen, hw, hws⟩, fun ⟨hrsv, hmen, hw, hws⟩ => ⟨hrsv, hcode, hmen, hw, hws⟩⟩

end Sys2Proof

namespace Sys2Proof.Machine

/-- An operation's words are encoded by its code, the rests the decoder accepts for it, and its command of the fields: a word
that another operation accepts has another code. -/
theorem encodedBy_op (op : Op) {legal : Fields → Prop}
    (hlegal : ∀ d, legal d ↔ op.allowsMen d.men = true ∧ (op.namesW = true ∨ d.w = 0) ∧ (op.namesWs = true ∨ d.ws = 0)) :
    EncodedBy op.code legal op.command := by
  intro s t rest hhost hcode
  rw [hlegal, ← Op.accepts_iff_of_code hcode]
  constructor
  · intro haccepts
    exact stepRunsDecodedInstruction s t rest _ hhost (decode_eq_ok_iff.mpr ⟨op, haccepts, rfl⟩)
  · intro hrefuses
    refine step_illegal hhost fun ⟨i, hdecode⟩ => hrefuses ?_
    obtain ⟨op', haccepts, -⟩ := decode_eq_ok_iff.mp hdecode
    rwa [Op.code_injective (hcode.symm.trans haccepts.code)]

/-- A command that adds the response `r` replies `r`. -/
theorem reply_of_exec {i : Instr} {a b m : Bus} {s t : State} {r : Response} (h : exec i (s.withPorts a b m) = .next t)
    (hr : t.responses = s.responses ++ [r]) : reply i a b m s = some r := by
  simp only [reply, h, hr, List.drop_left]

end Sys2Proof.Machine
end

section
/-! The bitwise unit's statements (spec/40_bitwise.md): NOT, AND, OR, XOR and MERGE, bit by bit and lane by lane. -/

namespace Sys2Proof.Machine

section
variable (f : Fam) (s : State)

/-! The five commands as whole next states (R91 to R97). -/

theorem exec_not : exec (.not f) s = .next (s.withOk (onBus (~~~s.opA f)) false) := rfl

theorem exec_and : exec (.and f) s = .next (s.withOk (onBus (s.opA f &&& s.opB f)) false) := rfl

theorem exec_or : exec (.or f) s = .next (s.withOk (onBus (s.opA f ||| s.opB f)) false) := rfl

theorem exec_xor : exec (.xor f) s = .next (s.withOk (onBus (s.opA f ^^^ s.opB f)) false) := rfl

theorem exec_merge : exec (.merge f) s = .next (s.withOk (onBus (mergeBits (s.opA f) (s.opB f) (s.opM f))) false) := rfl

/-! The operands, bit by bit (R44). -/

@[simp] theorem State.opA_getLsbD (p : Nat) :
    (s.opA f).getLsbD p = (decide (p < f.bits) && s.port.aBus.getLsbD p) := operand_getLsbD f _ p

@[simp] theorem State.opB_getLsbD (p : Nat) :
    (s.opB f).getLsbD p = (decide (p < f.bits) && s.port.bBus.getLsbD p) := operand_getLsbD f _ p

@[simp] theorem State.opM_getLsbD (p : Nat) :
    (s.opM f).getLsbD p = (decide (p < f.bits) && s.port.mBus.getLsbD p) := operand_getLsbD f _ p

end

theorem mergeBits_getLsbD {n : Nat} (a b m : BitVec n) (p : Nat) :
    (mergeBits a b m).getLsbD p = if m.getLsbD p then b.getLsbD p else a.getLsbD p := by
  simp only [mergeBits, BitVec.getLsbD_or, BitVec.getLsbD_and, BitVec.getLsbD_not]
  by_cases hp : p < n
  · cases m.getLsbD p <;> simp [hp]
  · simp [BitVec.getLsbD_of_ge _ _ (not_lt.mp hp)]

/-- The encoding of the context-free commands that carry no mask (R64, R65). -/
theorem encodedBy_plain (op : Op) (hmen : ∀ men, op.allowsMen men = (men == 0)) (hw : op.namesW = false)
    (hws : op.namesWs = false) : EncodedBy op.code (fun d => d.men = 0 ∧ d.w = 0 ∧ d.ws = 0) op.command :=
  encodedBy_op op fun d => by simp [hmen, hw, hws]

/-- Settles O12: a bit of the complement is the complement of the operand's bit, and NOT has the encoding of a plain command. -/
theorem notComplementsEveryBit : Obligations.NotComplementsEveryBit := by
  refine ⟨fun f s => ⟨_, exec_not f s, fun p => ?_⟩, encodedBy_plain .not (fun _ => rfl) rfl rfl⟩
  rw [onBus_getLsbD, BitVec.getLsbD_not, State.opA_getLsbD]
  cases decide (p < f.bits) <;> rfl

/-- Settles O13: a bit of the AND is the AND of the operands' bits. -/
theorem andTakesBothBits : Obligations.AndTakesBothBits := by
  refine ⟨fun f s => ⟨_, exec_and f s, fun p => ?_⟩, encodedBy_plain .and (fun _ => rfl) rfl rfl⟩
  rw [onBus_getLsbD, BitVec.getLsbD_and, State.opA_getLsbD, State.opB_getLsbD]
  cases decide (p < f.bits) <;> rfl

/-- Settles O14: a bit of the OR is the OR of the operands' bits. -/
theorem orTakesEitherBit : Obligations.OrTakesEitherBit := by
  refine ⟨fun f s => ⟨_, exec_or f s, fun p => ?_⟩, encodedBy_plain .or (fun _ => rfl) rfl rfl⟩
  rw [onBus_getLsbD, BitVec.getLsbD_or, State.opA_getLsbD, State.opB_getLsbD, Bool.and_or_distrib_left]

/-- Settles O15: a bit of the XOR is the XOR of the operands' bits. -/
theorem xorTakesDifferingBits : Obligations.XorTakesDifferingBits := by
  refine ⟨fun f s => ⟨_, exec_xor f s, fun p => ?_⟩, encodedBy_plain .xor (fun _ => rfl) rfl rfl⟩
  rw [onBus_getLsbD, BitVec.getLsbD_xor, State.opA_getLsbD, State.opB_getLsbD, Bool.and_xor_distrib_left]

/-- Settles O16: the mask's bit selects the operand; MERGE needs a set mask (R97). -/
theorem mergeSelectsByMaskBit : Obligations.MergeSelectsByMaskBit := by
  refine ⟨fun f s => ⟨_, exec_merge f s, fun p => ?_⟩, encodedBy_op .merge fun d => ?_⟩
  · rw [onBus_getLsbD, mergeBits_getLsbD, State.opA_getLsbD, State.opB_getLsbD, State.opM_getLsbD]
    cases decide (p < f.bits) <;> simp
  · simp [Op.allowsMen, Op.namesW, Op.namesWs]

/-! Lanes (R90): taking a byte of a word commutes with the bitwise operations. -/

section
variable {f : Fam} (v w m : BitVec f.bits) {i : Nat}

theorem byteAt_and : byteAt f (v &&& w) i = byteAt f v i &&& byteAt f w i := BitVec.extractLsb'_and

theorem byteAt_or : byteAt f (v ||| w) i = byteAt f v i ||| byteAt f w i := BitVec.extractLsb'_or

theorem byteAt_xor : byteAt f (v ^^^ w) i = byteAt f v i ^^^ byteAt f w i := BitVec.extractLsb'_xor

/-- The lane has to be an enabled one: above the word the complement is 0, not 1. -/
theorem byteAt_not (hi : i < f.len) : byteAt f (~~~v) i = ~~~byteAt f v i := by
  ext j hj
  have hbit : 8 * (f.len - 1 - i) + j < f.bits := by
    rw [Fam.bits]
    omega
  simp only [byteAt, BitVec.getElem_extractLsb', BitVec.getElem_not, BitVec.getLsbD_not, hbit, decide_true, Bool.true_and]

theorem byteAt_mergeBits (hi : i < f.len) :
    byteAt f (mergeBits v w m) i = (byteAt f v i &&& ~~~byteAt f m i) ||| (byteAt f w i &&& byteAt f m i) := by
  rw [mergeBits, byteAt_or, byteAt_and, byteAt_and, byteAt_not m hi]

end

/-- Settles O17: the lane of a result on the port is the lane of its word, and taking a lane commutes with the operation; for a
byte, the complement is 255 minus it. -/
theorem bitwiseLanesAreIndependent : Obligations.BitwiseLanesAreIndependent := by
  intro f s lane hlane
  have hresult (v : BitVec f.bits) (i : Nat) : lane (onBus v) i = byteAt f v i :=
    (hlane _ i).trans (congrArg (byteAt f · i) (operand_onBus f v))
  have hA (i : Nat) : lane s.port.aBus i = byteAt f (s.opA f) i := hlane _ i
  have hB (i : Nat) : lane s.port.bBus i = byteAt f (s.opB f) i := hlane _ i
  have hM (i : Nat) : lane s.port.mBus i = byteAt f (s.opM f) i := hlane _ i
  refine ⟨_, _, _, _, _, exec_not f s, exec_and f s, exec_or f s, exec_xor f s, exec_merge f s, fun i hi => ?_⟩
  simp only [hresult, hA, hB, hM]
  exact ⟨(byteAt_not _ hi).trans (BitVec.allOnes_sub_eq_not _).symm, byteAt_and _ _, byteAt_or _ _, byteAt_xor _ _,
    byteAt_mergeBits _ _ _ hi⟩

/-! NOT undoes itself (R99). -/

theorem reply_not (f : Fam) (a b m : Bus) (s : State) :
    reply (.not f) a b m s = some { status := .ok, r := onBus (~~~operand f a), flag := false } :=
  reply_of_exec (exec_not f (s.withPorts a b m)) rfl

theorem complement_complement {n : Nat} (m : Option (BitVec n)) : complement (complement m) = m := by
  cases m with
  | none => rfl
  | some v => exact congrArg some BitVec.not_not

/-- Settles O18: the operand of the second NOT is the first one's result, whose complement is the first operand. -/
theorem notIsItsOwnInverse : Obligations.NotIsItsOwnInverse := by
  refine ⟨fun f s a b m b' m' => ⟨_, reply_not f a b m s, ?_⟩, fun _ => complement_complement, fun _ => rfl⟩
  rw [reply_not, operand_onBus, BitVec.not_not]
  rfl

end Sys2Proof.Machine
end

section
/-! The plain stepper's statements (spec/41_stepper.md section 1): NEXT and PREV on a whole address. -/

namespace Sys2Proof.Machine

section
variable (f : Fam) (s : State)

theorem exec_next : exec (.next f) s = .next (s.withOk (onBus (nextAddress (s.opA f))) false) := rfl

theorem exec_prev : exec (.prev f) s = .next (s.withOk (onBus (prevAddress (s.opA f))) false) := rfl

theorem reply_next (a b m : Bus) :
    reply (.next f) a b m s = some { status := .ok, r := onBus (nextAddress (operand f a)), flag := false } :=
  reply_of_exec (exec_next f (s.withPorts a b m)) rfl

theorem reply_prev (a b m : Bus) :
    reply (.prev f) a b m s = some { status := .ok, r := onBus (prevAddress (operand f a)), flag := false } :=
  reply_of_exec (exec_prev f (s.withPorts a b m)) rfl

theorem State.opA_toNat : (s.opA f).toNat = s.port.aBus.toNat % 2 ^ f.bits := operand_toNat f _

end

/-- Settles O19: the result is the residue of the operand plus one, and NEXT has the encoding of a plain command. -/
theorem nextAddsOne : Obligations.NextAddsOne := by
  refine ⟨fun f s => ⟨_, exec_next f s, ?_⟩, encodedBy_plain .next (fun _ => rfl) rfl rfl⟩
  rw [onBus_toNat, ← State.opA_toNat]
  exact_mod_cast truncN_toNat f.bits ((s.opA f).toNat + 1)

/-- Settles O20: the result is the residue of the operand minus one, which is non-negative also for the operand 0. -/
theorem prevSubtractsOne : Obligations.PrevSubtractsOne := by
  refine ⟨fun f s => ⟨_, exec_prev f s, ?_⟩, encodedBy_plain .prev (fun _ => rfl) rfl rfl⟩
  rw [onBus_toNat, ← State.opA_toNat]
  exact truncN_toNat f.bits ((s.opA f).toNat - 1)

/-! The round trip and the wrap (R115, R116). -/

theorem prevAddress_nextAddress {n : Nat} (a : BitVec n) : prevAddress (nextAddress a) = a := by
  rw [prevAddress_eq, nextAddress_eq, BitVec.add_sub_cancel]

theorem nextAddress_prevAddress {n : Nat} (a : BitVec n) : nextAddress (prevAddress a) = a := by
  rw [prevAddress_eq, nextAddress_eq, BitVec.sub_add_cancel]

/-- Settles O22: the operand of the second command is the first one's result, and the two steps cancel modulo `2^n`. -/
theorem nextAndPrevRoundTrip : Obligations.NextAndPrevRoundTrip := by
  refine fun f s a b m b' m' => ⟨⟨_, reply_next f s a b m, ?_⟩, ⟨_, reply_prev f s a b m, ?_⟩⟩
  · rw [reply_prev, operand_onBus, prevAddress_nextAddress]
    rfl
  · rw [reply_next, operand_onBus, nextAddress_prevAddress]
    rfl

theorem nextAddress_allOnes (n : Nat) : nextAddress (BitVec.allOnes n) = 0#n := by
  rw [nextAddress_eq, ← BitVec.neg_one_eq_allOnes, BitVec.add_comm, BitVec.add_right_neg]

theorem prevAddress_zero (n : Nat) : prevAddress (0#n) = BitVec.allOnes n := by
  rw [← nextAddress_allOnes, prevAddress_nextAddress]

theorem reply_next_allOnes (f : Fam) (b m : Bus) (s : State) :
    reply (.next f) (onBus (BitVec.allOnes f.bits)) b m s =
      some { status := .ok, r := onBus 0#f.bits, flag := false } := by
  rw [reply_next, operand_onBus, nextAddress_allOnes]

theorem reply_prev_zero (f : Fam) (b m : Bus) (s : State) :
    reply (.prev f) (onBus 0#f.bits) b m s =
      some { status := .ok, r := onBus (BitVec.allOnes f.bits), flag := false } := by
  rw [reply_prev, operand_onBus, prevAddress_zero]

/-- Settles O23: the ports carry all ones and 0 of the command's own length, which step to each other. -/
theorem nextAndPrevWrap : Obligations.NextAndPrevWrap := fun s b m =>
  ⟨reply_next_allOnes .ipv4 b m s, reply_next_allOnes .ipv6 b m s, reply_prev_zero .ipv4 b m s, reply_prev_zero .ipv6 b m s⟩

/-! Lanes as a number (R42). -/

theorem byteAt_toNat (f : Fam) (v : BitVec f.bits) (i : Nat) :
    (byteAt f v i).toNat = v.toNat / 256 ^ (f.len - 1 - i) % 256 := by
  rw [byteAt, BitVec.extractLsb'_toNat, Nat.shiftRight_eq_div_pow, Nat.pow_mul]

/-- The last `m` lanes of an address spell its value modulo `256^m`. -/
theorem lanesValue_last (f : Fam) (v : BitVec f.bits) (m : Nat) (hm : m ≤ f.len) :
    lanesValue ((List.range' (f.len - m) m).map (byteAt f v)) = v.toNat % 256 ^ m := by
  induction m with
  | zero => exact (Nat.mod_one _).symm
  | succ m ih =>
    have hnext : f.len - (m + 1) + 1 = f.len - m := by omega
    have hexp : f.len - 1 - (f.len - (m + 1)) = m := by omega
    rw [List.range'_succ, List.map_cons, lanesValue, hnext, ih (by omega), List.length_map, List.length_range',
      byteAt_toNat, hexp, Nat.mod_pow_succ, Nat.add_comm, Nat.mul_comm]

theorem Fam.two_pow_bits (f : Fam) : 2 ^ f.bits = 256 ^ f.len := Nat.pow_mul 2 8 f.len

theorem lanesValue_lanes (f : Fam) (v : BitVec f.bits) : lanesValue (lanes f v) = v.toNat := by
  have h := lanesValue_last f v f.len le_rfl
  rwa [Nat.sub_self, ← List.range_eq_range', ← Fam.two_pow_bits, Nat.mod_eq_of_lt v.isLt] at h

theorem lanes_length (f : Fam) (v : BitVec f.bits) : (lanes f v).length = f.len := by
  simp only [lanes, List.length_map, List.length_range]

/-! The byte-by-byte scans (R112, R114). -/

section
variable (b : Byte) {rest : List Byte}

theorem incLanes_cons_of_carry (h : (incLanes rest).2 = true) :
    incLanes (b :: rest) = ((b + 1) :: (incLanes rest).1, b + 1 == 0x00) := by
  simp only [incLanes, h, if_true]

theorem incLanes_cons_of_stop (h : (incLanes rest).2 = false) :
    incLanes (b :: rest) = (b :: (incLanes rest).1, false) := by
  simp only [incLanes, h, Bool.false_eq_true, if_false]

theorem decLanes_cons_of_borrow (h : (decLanes rest).2 = true) :
    decLanes (b :: rest) = ((b - 1) :: (decLanes rest).1, b - 1 == 0xFF) := by
  simp only [decLanes, h, if_true]

theorem decLanes_cons_of_stop (h : (decLanes rest).2 = false) :
    decLanes (b :: rest) = (b :: (decLanes rest).1, false) := by
  simp only [decLanes, h, Bool.false_eq_true, if_false]

end

theorem incLanes_length (l : List Byte) : (incLanes l).1.length = l.length := by
  induction l with
  | nil => rfl
  | cons b rest ih =>
    cases h : (incLanes rest).2
    · rw [incLanes_cons_of_stop b h, List.length_cons, ih, List.length_cons]
    · rw [incLanes_cons_of_carry b h, List.length_cons, ih, List.length_cons]

theorem decLanes_length (l : List Byte) : (decLanes l).1.length = l.length := by
  induction l with
  | nil => rfl
  | cons b rest ih =>
    cases h : (decLanes rest).2
    · rw [decLanes_cons_of_stop b h, List.length_cons, ih, List.length_cons]
    · rw [decLanes_cons_of_borrow b h, List.length_cons, ih, List.length_cons]

/-- A byte overflows on increment exactly when it becomes `0x00`. -/
theorem byte_inc_toNat (b : Byte) : (b + 1).toNat + 256 * (b + 1 == 0x00).toNat = b.toNat + 1 := by
  revert b
  decide

/-- A byte underflows on decrement exactly when it becomes `0xFF`. -/
theorem byte_dec_toNat (b : Byte) : (b - 1).toNat + 1 = b.toNat + 256 * (b - 1 == 0xFF).toNat := by
  revert b
  decide

/-- The scan adds one, counting the carry that leaves the first lane. -/
theorem incLanes_value (l : List Byte) :
    lanesValue (incLanes l).1 + 256 ^ l.length * (incLanes l).2.toNat = lanesValue l + 1 := by
  induction l with
  | nil => rfl
  | cons b rest ih =>
    cases h : (incLanes rest).2 <;> rw [h] at ih
    · simp only [incLanes_cons_of_stop b h, lanesValue, incLanes_length, Bool.toNat_false] at ih ⊢
      omega
    · simp only [incLanes_cons_of_carry b h, lanesValue, incLanes_length, List.length_cons, Bool.toNat_true] at ih ⊢
      linear_combination 256 ^ rest.length * byte_inc_toNat b + ih

/-- The scan subtracts one, counting the borrow that leaves the first lane. -/
theorem decLanes_value (l : List Byte) :
    lanesValue (decLanes l).1 + 1 = lanesValue l + 256 ^ l.length * (decLanes l).2.toNat := by
  induction l with
  | nil => rfl
  | cons b rest ih =>
    cases h : (decLanes rest).2 <;> rw [h] at ih
    · simp only [decLanes_cons_of_stop b h, lanesValue, decLanes_length, Bool.toNat_false] at ih ⊢
      omega
    · simp only [decLanes_cons_of_borrow b h, lanesValue, decLanes_length, List.length_cons, Bool.toNat_true] at ih ⊢
      linear_combination 256 ^ rest.length * byte_dec_toNat b + ih

theorem ofNat_bits_add_wrap (f : Fam) (x w : Nat) : BitVec.ofNat f.bits (x + 256 ^ f.len * w) = BitVec.ofNat f.bits x := by
  rw [← Fam.two_pow_bits]
  exact BitVec.eq_of_toNat_eq (by simp only [BitVec.toNat_ofNat, Nat.add_mul_mod_self_left])

theorem ofLanes_incLanes (f : Fam) (v : BitVec f.bits) : ofLanes f (incLanes (lanes f v)).1 = nextAddress v := by
  have h := incLanes_value (lanes f v)
  rw [lanesValue_lanes, lanes_length] at h
  rw [nextAddress_eq, ofLanes, ← ofNat_bits_add_wrap, h, BitVec.ofNat_add, BitVec.ofNat_toNat, BitVec.setWidth_eq]

theorem ofLanes_decLanes (f : Fam) (v : BitVec f.bits) : ofLanes f (decLanes (lanes f v)).1 = prevAddress v := by
  have h := decLanes_value (lanes f v)
  rw [lanesValue_lanes, lanes_length] at h
  rw [prevAddress_eq, BitVec.eq_sub_iff_add_eq, ofLanes, ← BitVec.ofNat_add, h, ofNat_bits_add_wrap, BitVec.ofNat_toNat,
    BitVec.setWidth_eq]

/-- Settles O21: the lanes of an address spell its number, and the scans add and subtract one modulo `256^L`. -/
theorem nextAndPrevByteByByte : Obligations.NextAndPrevByteByByte := by
  intro f s
  constructor
  · rw [exec_next, ← ofLanes_incLanes]
    rfl
  · rw [exec_prev, ← ofLanes_decLanes]
    rfl

end Sys2Proof.Machine
end

section
/-! The scans of WNEXT and WPREV, bit by bit (spec/41_stepper.md R118, R122): the one is an increment of the don't-care bits,
and the other is its dual under complement. -/

namespace Sys2Proof.Machine

section
variable {n : Nat} {mask x y : BitVec n}

/-- The carry of an increment that starts at bit `p` reaches bit `q`: every don't-care bit from `p` on below `q` is 1. -/
def CarryReaches (mask x : BitVec n) (p q : Nat) : Prop :=
  ∀ r, p ≤ r → r < q → mask.getLsbD r = false → x.getLsbD r = true

theorem CarryReaches.of_le {p q : Nat} (h : q ≤ p) : CarryReaches mask x p q := fun r hr hrq => by omega

theorem CarryReaches.passes {p q : Nat} (h : mask.getLsbD p = true ∨ x.getLsbD p = true) :
    CarryReaches mask x p q ↔ CarryReaches mask x (p + 1) q := by
  refine ⟨fun hc r hr => hc r (by omega), fun hc r hr hrq hm => ?_⟩
  obtain rfl | hlt := hr.eq_or_lt
  · exact h.resolve_left (by rw [hm]; exact Bool.false_ne_true)
  · exact hc r hlt hrq hm

theorem CarryReaches.stops {p q : Nat} (hm : mask.getLsbD p = false) (hx : x.getLsbD p = false) :
    CarryReaches mask x p q ↔ q ≤ p := by
  refine ⟨fun hc => not_lt.mp fun hpq => ?_, CarryReaches.of_le⟩
  exact Bool.false_ne_true (hx.symm.trans (hc p le_rfl hpq hm))

theorem CarryReaches.congr {p q : Nat} (h : ∀ r, p ≤ r → x.getLsbD r = y.getLsbD r) :
    CarryReaches mask x p q ↔ CarryReaches mask y p q :=
  forall₂_congr fun r hr => by rw [h r hr]

theorem getLsbD_setBit {p : Nat} (hp : p < n) (q : Nat) :
    (x ||| BitVec.twoPow n p).getLsbD q = if q = p then true else x.getLsbD q := by
  rw [BitVec.getLsbD_or, BitVec.getLsbD_twoPow]
  by_cases h : q = p <;> simp [h, hp, eq_comm (a := p)]

theorem getLsbD_clearBit {p : Nat} (hp : p < n) (q : Nat) :
    (x &&& ~~~BitVec.twoPow n p).getLsbD q = if q = p then false else x.getLsbD q := by
  rw [BitVec.getLsbD_and, BitVec.getLsbD_not, BitVec.getLsbD_twoPow]
  by_cases h : q = p
  · simp [h, hp]
  · by_cases hq : q < n
    · simp [h, hq, eq_comm (a := p)]
    · simp [BitVec.getLsbD_of_ge x q (not_lt.mp hq), h]

theorem getLsbD_not_of_lt {q : Nat} (hq : q < n) (x : BitVec n) : (~~~x).getLsbD q = !x.getLsbD q := by
  rw [BitVec.getLsbD_not, decide_eq_true hq, Bool.true_and]

/-- Everything the scan of R118 does: it flips exactly the don't-care bits that the carry reaches. -/
theorem scanUp_flips_iff {left p : Nat} (h : p + left ≤ n) (x : BitVec n) (q : Nat) :
    (scanUp mask left p x).getLsbD q ≠ x.getLsbD q ↔
      p ≤ q ∧ q < p + left ∧ mask.getLsbD q = false ∧ CarryReaches mask x p q := by
  induction left generalizing p x with
  | zero => simp [scanUp]; omega
  | succ left ih =>
    rw [scanUp]
    split
    · next hm => -- a care bit
      rw [ih (by omega), CarryReaches.passes (.inl hm)]
      grind
    · next hm =>
      split
      · next hx => -- a don't-care 1
        have hclear := getLsbD_clearBit (x := x) (p := p) (by omega)
        have hflips := ih (p := p + 1) (by omega) (x &&& ~~~BitVec.twoPow n p)
        rw [CarryReaches.congr (y := x) fun r hr => by rw [hclear, if_neg (by omega)]] at hflips
        rw [hclear] at hflips
        rw [CarryReaches.passes (.inr hx)]
        have hreach : CarryReaches mask x (p + 1) p := .of_le (by omega)
        by_cases hq : q = p
        · subst hq
          grind
        · grind
      · next hx => -- a don't-care 0
        rw [getLsbD_setBit (by omega), CarryReaches.stops (by simpa using hm) (by simpa using hx)]
        grind

/-- The scan of R122 is the dual of that of R118: clearing and setting change places under complement. -/
theorem scanDown_eq_not {left p : Nat} (h : p + left ≤ n) (x : BitVec n) :
    scanDown mask left p x = ~~~scanUp mask left p (~~~x) := by
  induction left generalizing p x with
  | zero => simp [scanUp, scanDown]
  | succ left ih =>
    have hrest : p + 1 + left ≤ n := by omega
    rw [scanDown, scanUp, getLsbD_not_of_lt (by omega)]
    cases mask.getLsbD p
    · cases x.getLsbD p
      · simp [ih hrest, BitVec.not_or]
      · simp [BitVec.not_or]
    · simp [ih hrest]

theorem wildcardPrev_eq_not (mask x : BitVec n) : wildcardPrev mask x = ~~~wildcardNext mask (~~~x) :=
  scanDown_eq_not (by omega) x

/-- WNEXT flips exactly the don't-care bits that the carry reaches from bit 0. -/
theorem wildcardNext_flips_iff (mask x : BitVec n) (q : Nat) :
    (wildcardNext mask x).getLsbD q ≠ x.getLsbD q ↔ q < n ∧ mask.getLsbD q = false ∧ CarryReaches mask x 0 q := by
  rw [wildcardNext, scanUp_flips_iff (by omega)]
  simp

theorem wildcardNext_care {q : Nat} (hm : mask.getLsbD q = true) : (wildcardNext mask x).getLsbD q = x.getLsbD q := by
  by_contra h
  obtain ⟨-, hdc, -⟩ := (wildcardNext_flips_iff mask x q).mp h
  exact Bool.false_ne_true (hdc.symm.trans hm)

theorem wildcardNext_of_carry {q : Nat} (hq : q < n) (hm : mask.getLsbD q = false) (hc : CarryReaches mask x 0 q) :
    (wildcardNext mask x).getLsbD q = !x.getLsbD q :=
  Bool.eq_not_of_ne ((wildcardNext_flips_iff mask x q).mpr ⟨hq, hm, hc⟩)

theorem steppedUp_wildcardNext (mask x : BitVec n) : SteppedUp mask x (wildcardNext mask x) := by
  refine ⟨fun q _ hm => wildcardNext_care hm, ?_⟩
  by_cases hzero : ∃ p, p < n ∧ mask.getLsbD p = false ∧ x.getLsbD p = false
  · obtain ⟨hp, hm, hx⟩ := Nat.find_spec hzero
    have hmin := fun r => Nat.find_min (m := r) hzero
    generalize Nat.find hzero = p at hp hm hx hmin
    have hones : CarryReaches mask x 0 p := fun r _ hr hmr =>
      Bool.eq_true_of_not_eq_false fun hxr => hmin r hr ⟨hr.trans hp, hmr, hxr⟩
    refine .inl ⟨p, hp, hm, hx, ?_, fun q hq hmq => ⟨hones q q.zero_le hq hmq, ?_⟩, fun q hq _ => ?_⟩
    · rw [wildcardNext_of_carry hp hm hones, hx, Bool.not_false]
    · rw [wildcardNext_of_carry (hq.trans hp) hmq fun r hr hrq => hones r hr (hrq.trans hq), hones q q.zero_le hq hmq,
        Bool.not_true]
    · by_contra hflip
      obtain ⟨-, -, hc⟩ := (wildcardNext_flips_iff mask x q).mp hflip
      exact Bool.false_ne_true (hx.symm.trans (hc p p.zero_le hq hm))
  · have hones (r : Nat) (hr : r < n) (hmr : mask.getLsbD r = false) : x.getLsbD r = true :=
      Bool.eq_true_of_not_eq_false fun hxr => hzero ⟨r, hr, hmr, hxr⟩
    refine .inr fun q hq hm => ⟨hones q hq hm, ?_⟩
    rw [wildcardNext_of_carry hq hm fun r _ hrq => hones r (hrq.trans hq), hones q hq hm, Bool.not_true]

/-- What WPREV makes of a cursor is the complement of what WNEXT makes of its complement. -/
theorem SteppedUp.dual (h : SteppedUp mask (~~~x) y) : SteppedDown mask x (~~~y) := by
  obtain ⟨hcare, hstep⟩ := h
  have hnot {q : Nat} := getLsbD_not_of_lt (n := n) (q := q)
  refine ⟨fun q hq hm => ?_, ?_⟩
  · have := hcare q hq hm
    grind
  · rcases hstep with ⟨p, hp, hm, hx, hy, hlow, hhigh⟩ | hall
    · refine .inl ⟨p, hp, hm, ?_, ?_, fun q hq hmq => ?_, fun q hpq hq => ?_⟩
      · grind
      · grind
      · have := hlow q hq hmq
        grind
      · have := hhigh q hpq hq
        grind
    · refine .inr fun q hq hm => ?_
      have := hall q hq hm
      grind

theorem steppedDown_wildcardPrev (mask x : BitVec n) : SteppedDown mask x (wildcardPrev mask x) := by
  rw [wildcardPrev_eq_not]
  exact (steppedUp_wildcardNext mask (~~~x)).dual

theorem wildcardPrev_care {q : Nat} (hm : mask.getLsbD q = true) : (wildcardPrev mask x).getLsbD q = x.getLsbD q := by
  obtain ⟨hcare, -⟩ := steppedDown_wildcardPrev mask x
  exact hcare q (BitVec.lt_of_getLsbD hm) hm

/-! The wraps (R120, R124). -/

theorem or_mask_eq_allOnes_iff :
    x ||| mask = BitVec.allOnes n ↔ ∀ q, q < n → mask.getLsbD q = false → x.getLsbD q = true := by
  rw [BitVec.eq_of_getLsbD_eq_iff]
  refine forall₂_congr fun q hq => ?_
  rw [BitVec.getLsbD_or, BitVec.getLsbD_allOnes, decide_eq_true hq]
  cases mask.getLsbD q <;> simp

theorem not_or_mask_eq_allOnes_iff : ~~~x ||| mask = BitVec.allOnes n ↔ x &&& ~~~mask = 0#n := by
  rw [← BitVec.not_inj, BitVec.not_or, BitVec.not_not, BitVec.not_allOnes]

theorem and_not_mask_eq_zero_iff :
    x &&& ~~~mask = 0#n ↔ ∀ q, q < n → mask.getLsbD q = false → x.getLsbD q = false := by
  rw [← not_or_mask_eq_allOnes_iff, or_mask_eq_allOnes_iff]
  refine forall₂_congr fun q hq => ?_
  rw [getLsbD_not_of_lt hq, Bool.not_eq_true']

theorem wildcardNext_of_wrap (h : x ||| mask = BitVec.allOnes n) : wildcardNext mask x = x &&& mask := by
  rw [or_mask_eq_allOnes_iff] at h
  refine BitVec.eq_of_getLsbD_eq fun q hq => ?_
  rw [BitVec.getLsbD_and]
  cases hm : mask.getLsbD q
  · rw [wildcardNext_of_carry hq hm fun r _ hrq => h r (hrq.trans hq), h q hq hm, Bool.not_true, Bool.and_false]
  · rw [wildcardNext_care hm, Bool.and_true]

theorem wildcardPrev_of_wrap (h : x &&& ~~~mask = 0#n) : wildcardPrev mask x = (x &&& mask) ||| ~~~mask := by
  have hand : ~~~x &&& mask = ~~~(x ||| ~~~mask) := by rw [BitVec.not_or, BitVec.not_not]
  have hor : x ||| ~~~mask = (x &&& mask) ||| ~~~mask := by
    ext q hq
    simp only [BitVec.getElem_or, BitVec.getElem_and, BitVec.getElem_not]
    cases mask[q] <;> simp
  rw [wildcardPrev_eq_not, wildcardNext_of_wrap (not_or_mask_eq_allOnes_iff.mpr h), hand, BitVec.not_not, hor]

end

end Sys2Proof.Machine
end

section
/-! The stepper's statements on a wildcard context (spec/41_stepper.md section 2): WNEXT and WPREV. -/

namespace Sys2Proof.Machine

section
variable {s : State} {k : CtxIndex} {c : Context} (h : s.contexts[k] = some c)
include h

theorem exec_wnext : exec (.wnext c.fam k) s =
    .next ((s.withContext k { c with ip := wildcardNext c.mask c.ip }).withOk (onBus (wildcardNext c.mask c.ip)) false) :=
  State.onContext_ok _ h

theorem exec_wprev : exec (.wprev c.fam k) s =
    .next ((s.withContext k { c with ip := wildcardPrev c.mask c.ip }).withOk (onBus (wildcardPrev c.mask c.ip)) false) :=
  State.onContext_ok _ h

end

/-- A command that is an effect on context `k` makes the checks of R204 on it, whatever the effect. -/
theorem checksContext_of_onContext {command : Fam → Instr} {k : CtxIndex} {effect : Fam → State → Context → State}
    (h : ∀ f s, exec (command f) s = s.onContext k f (effect f s)) : ChecksContext command k :=
  fun f s => ⟨fun hk => (h f s).trans (State.onContext_none f _ hk),
    fun _ hk hf => (h f s).trans (State.onContext_family _ hk hf)⟩

/-- The encoding of the commands that name one context and carry no mask (R64, R65). -/
theorem encodedBy_oneContext (op : Op) (hmen : ∀ men, op.allowsMen men = (men == 0)) (hw : op.namesW = true)
    (hws : op.namesWs = false) : EncodedBy op.code (fun d => d.men = 0 ∧ d.ws = 0) op.command :=
  encodedBy_op op fun d => by simp [hmen, hw, hws]

/-- Settles O35: the scan flips the don't-care bits that the carry reaches, and WNEXT writes what it makes of the cursor. -/
theorem wnextStepsUp : Obligations.WnextStepsUp :=
  ⟨fun _ _ c h => ⟨_, _, exec_wnext h, steppedUp_wildcardNext c.mask c.ip, onBus_toNat c.fam _⟩,
    fun _ => checksContext_of_onContext fun _ _ => rfl, encodedBy_oneContext .wnext (fun _ => rfl) rfl rfl⟩

/-- Settles O36: WPREV is the dual of WNEXT under complement, and so is what it makes of a cursor. -/
theorem wprevStepsDown : Obligations.WprevStepsDown :=
  ⟨fun _ _ c h => ⟨_, _, exec_wprev h, steppedDown_wildcardPrev c.mask c.ip, onBus_toNat c.fam _⟩,
    fun _ => checksContext_of_onContext fun _ _ => rfl, encodedBy_oneContext .wprev (fun _ => rfl) rfl rfl⟩

/-- Settles O39: with every don't-care bit 1 the carry reaches and clears them all, and the care bits are `bits`. -/
theorem wnextWraps : Obligations.WnextWraps := by
  rintro k s c y h hones rfl
  rw [exec_wnext h, wildcardNext_of_wrap hones]
  exact ⟨rfl, fun ⟨_, hmatch⟩ => hmatch⟩

/-- Settles O40: with every don't-care bit 0 the borrow reaches and sets them all, and the care bits are `bits`. -/
theorem wprevWraps : Obligations.WprevWraps := by
  rintro k s c y h hzeros rfl
  rw [exec_wprev h, wildcardPrev_of_wrap hzeros]
  exact ⟨rfl, fun ⟨_, hmatch⟩ => by rw [hmatch]⟩

end Sys2Proof.Machine
end

section
/-! The addresses under a wildcard in their order (spec/41_stepper.md R125, R126): each has an index, the number its
don't-care bits spell, and the stepper counts it up and down. -/

namespace Sys2Proof.Machine

/-- The number that the don't-care bits of `x` at the positions of a list spell, the first position the lowest. -/
def dontCareValue {n : Nat} (mask x : BitVec n) : List Nat → Nat
  | [] => 0
  | p :: ps => if mask.getLsbD p then dontCareValue mask x ps else (x.getLsbD p).toNat + 2 * dontCareValue mask x ps

/-- The number of don't-care bits at the positions of a list. -/
def dontCareCount {n : Nat} (mask : BitVec n) (ps : List Nat) : Nat := ps.countP fun p => !mask.getLsbD p

/-- The index of `x` among the addresses that have its care bits, in address order. -/
def matchIndex {n : Nat} (mask x : BitVec n) : Nat := dontCareValue mask x (List.range n)

theorem Context.dontCares_eq (c : Context) : c.dontCares = dontCareCount c.mask (List.range c.fam.bits) := rfl

section
variable {n : Nat} {mask x y z : BitVec n} {p : Nat} (ps : List Nat)

theorem dontCareValue_cons_care (h : mask.getLsbD p = true) :
    dontCareValue mask x (p :: ps) = dontCareValue mask x ps := by
  simp only [dontCareValue, h, if_true]

theorem dontCareValue_cons_dontCare (h : mask.getLsbD p = false) :
    dontCareValue mask x (p :: ps) = (x.getLsbD p).toNat + 2 * dontCareValue mask x ps := by
  simp only [dontCareValue, h, Bool.false_eq_true, if_false]

theorem dontCareCount_cons_care (h : mask.getLsbD p = true) : dontCareCount mask (p :: ps) = dontCareCount mask ps := by
  simp [dontCareCount, h]

theorem two_pow_dontCareCount_cons (h : mask.getLsbD p = false) :
    2 ^ dontCareCount mask (p :: ps) = 2 * 2 ^ dontCareCount mask ps := by
  simp [dontCareCount, h, pow_succ']

theorem dontCareValue_congr {ps : List Nat} (h : ∀ p ∈ ps, mask.getLsbD p = false → x.getLsbD p = y.getLsbD p) :
    dontCareValue mask x ps = dontCareValue mask y ps := by
  induction ps with
  | nil => rfl
  | cons p ps ih =>
    obtain ⟨hp, hps⟩ := List.forall_mem_cons.mp h
    cases hm : mask.getLsbD p
    · rw [dontCareValue_cons_dontCare ps hm, dontCareValue_cons_dontCare ps hm, hp hm, ih hps]
    · rw [dontCareValue_cons_care ps hm, dontCareValue_cons_care ps hm, ih hps]

/-- The number of an address and that of its complement make up the highest number. -/
theorem dontCareValue_add_not {ps : List Nat} (h : ∀ p ∈ ps, p < n) :
    dontCareValue mask x ps + dontCareValue mask (~~~x) ps + 1 = 2 ^ dontCareCount mask ps := by
  induction ps with
  | nil => rfl
  | cons p ps ih =>
    obtain ⟨hp, hps⟩ := List.forall_mem_cons.mp h
    have ih := ih hps
    cases hm : mask.getLsbD p
    · rw [dontCareValue_cons_dontCare ps hm, dontCareValue_cons_dontCare ps hm, two_pow_dontCareCount_cons ps hm,
        getLsbD_not_of_lt hp]
      cases x.getLsbD p <;> simp <;> omega
    · rwa [dontCareValue_cons_care ps hm, dontCareValue_cons_care ps hm, dontCareCount_cons_care ps hm]

theorem dontCareValue_eq_zero_iff :
    dontCareValue mask x ps = 0 ↔ ∀ p ∈ ps, mask.getLsbD p = false → x.getLsbD p = false := by
  induction ps with
  | nil => simp [dontCareValue]
  | cons p ps ih =>
    rw [List.forall_mem_cons, ← ih]
    cases hm : mask.getLsbD p
    · simp [dontCareValue_cons_dontCare ps hm]
    · simp [dontCareValue_cons_care ps hm]

/-- Addresses with the same care bits are in the order of their don't-care bits. -/
theorem dontCareValue_le_iff {ps : List Nat} (h : ∀ p, mask.getLsbD p = true → x.getLsbD p = z.getLsbD p) :
    dontCareValue mask x ps ≤ dontCareValue mask z ps ↔ dontCareValue 0#n x ps ≤ dontCareValue 0#n z ps := by
  induction ps generalizing x z with
  | nil => rfl
  | cons p ps ih =>
    have hle := ih h
    have hge := ih fun p hm => (h p hm).symm
    simp only [dontCareValue_cons_dontCare (mask := 0#n) ps BitVec.getLsbD_zero]
    cases hm : mask.getLsbD p
    · rw [dontCareValue_cons_dontCare ps hm, dontCareValue_cons_dontCare ps hm]
      have := (x.getLsbD p).toNat_le
      have := (z.getLsbD p).toNat_le
      omega
    · rw [dontCareValue_cons_care ps hm, dontCareValue_cons_care ps hm, h p hm]
      omega

/-- With no care bit, the bits from `p` on spell the number they have in the address. -/
theorem dontCareValue_zero_mask (x : BitVec n) (p left : Nat) :
    dontCareValue 0#n x (List.range' p left) = x.toNat / 2 ^ p % 2 ^ left := by
  induction left generalizing p with
  | zero => exact (Nat.mod_one _).symm
  | succ left ih =>
    rw [List.range'_succ, dontCareValue_cons_dontCare _ BitVec.getLsbD_zero, ih, ← BitVec.testBit_toNat, Nat.toNat_testBit,
      pow_succ' 2 left, Nat.mod_mul, Nat.div_div_eq_div_mul, ← pow_succ]

theorem dontCareValue_lt {ps : List Nat} (h : ∀ p ∈ ps, p < n) :
    dontCareValue mask x ps < 2 ^ dontCareCount mask ps := by
  rw [← dontCareValue_add_not (x := x) h]
  omega

/-- An increment of the don't-care bits, taken bit by bit, adds one to their number. -/
theorem dontCareValue_of_flips {p left : Nat} (hn : p + left ≤ n)
    (h : ∀ q, p ≤ q → q < p + left →
      (y.getLsbD q ≠ x.getLsbD q ↔ mask.getLsbD q = false ∧ CarryReaches mask x p q)) :
    dontCareValue mask y (List.range' p left) =
      (dontCareValue mask x (List.range' p left) + 1) % 2 ^ dontCareCount mask (List.range' p left) := by
  induction left generalizing p with
  | zero => exact (Nat.mod_one _).symm
  | succ left ih =>
    have htail (hpass : mask.getLsbD p = true ∨ x.getLsbD p = true) := ih (p := p + 1) (by omega) fun q hq hql =>
      (h q (by omega) (by omega)).trans (by rw [CarryReaches.passes hpass])
    rw [List.range'_succ]
    cases hm : mask.getLsbD p
    · have hflip : y.getLsbD p = !x.getLsbD p :=
        Bool.eq_not_of_ne ((h p le_rfl (by omega)).mpr ⟨hm, .of_le le_rfl⟩)
      rw [dontCareValue_cons_dontCare _ hm, dontCareValue_cons_dontCare _ hm, two_pow_dontCareCount_cons _ hm, hflip]
      cases hx : x.getLsbD p
      · have hsame : dontCareValue mask y (List.range' (p + 1) left) = dontCareValue mask x (List.range' (p + 1) left) := by
          refine dontCareValue_congr fun q hq _ => of_not_not fun hflips => ?_
          obtain ⟨hpq, hql⟩ := List.mem_range'_1.mp hq
          have hstop := (CarryReaches.stops hm hx).mp ((h q (by omega) (by omega)).mp hflips).2
          omega
        have hlt : dontCareValue mask x (List.range' (p + 1) left) < 2 ^ dontCareCount mask (List.range' (p + 1) left) :=
          dontCareValue_lt fun q hq => by have := List.mem_range'_1.mp hq; omega
        rw [hsame, Bool.not_false, Bool.toNat_true, Bool.toNat_false, Nat.mod_eq_of_lt (by omega)]
        omega
      · rw [htail (.inr hx), Bool.not_true, Bool.toNat_false, zero_add, ← Nat.mul_mod_mul_left, Bool.toNat_true]
        congr 1
        omega
    · rw [dontCareValue_cons_care _ hm, dontCareValue_cons_care _ hm, dontCareCount_cons_care _ hm]
      exact htail (.inl hm)

end

section
variable {n : Nat} {mask x y : BitVec n}

theorem and_mask_eq_iff : x &&& mask = y &&& mask ↔ ∀ q, mask.getLsbD q = true → x.getLsbD q = y.getLsbD q := by
  constructor
  · intro h q hm
    simpa only [BitVec.getLsbD_and, hm, Bool.and_true] using congrArg (·.getLsbD q) h
  · intro h
    refine BitVec.eq_of_getLsbD_eq fun q _ => ?_
    rw [BitVec.getLsbD_and, BitVec.getLsbD_and]
    cases hm : mask.getLsbD q
    · rw [Bool.and_false, Bool.and_false]
    · rw [h q hm]

theorem matchIndex_add_not (mask x : BitVec n) :
    matchIndex mask x + matchIndex mask (~~~x) + 1 = 2 ^ dontCareCount mask (List.range n) :=
  dontCareValue_add_not fun _ => List.mem_range.mp

theorem matchIndex_lt (mask x : BitVec n) : matchIndex mask x < 2 ^ dontCareCount mask (List.range n) :=
  dontCareValue_lt fun _ => List.mem_range.mp

theorem matchIndex_eq_zero_iff : matchIndex mask x = 0 ↔ x &&& ~~~mask = 0#n := by
  simp only [matchIndex, dontCareValue_eq_zero_iff, and_not_mask_eq_zero_iff, List.mem_range]

theorem matchIndex_le_iff (h : x &&& mask = y &&& mask) :
    matchIndex mask x ≤ matchIndex mask y ↔ x.toNat ≤ y.toNat := by
  rw [matchIndex, matchIndex, dontCareValue_le_iff (and_mask_eq_iff.mp h), List.range_eq_range',
    dontCareValue_zero_mask, dontCareValue_zero_mask, pow_zero, Nat.div_one, Nat.div_one, Nat.mod_eq_of_lt x.isLt,
    Nat.mod_eq_of_lt y.isLt]

theorem matchIndex_lt_iff (h : x &&& mask = y &&& mask) :
    matchIndex mask x < matchIndex mask y ↔ x.toNat < y.toNat := by
  rw [← not_le, matchIndex_le_iff h.symm, not_le]

/-- An address is its care bits and its index. -/
theorem eq_of_matchIndex_eq (h : x &&& mask = y &&& mask) (hindex : matchIndex mask x = matchIndex mask y) : x = y :=
  BitVec.eq_of_toNat_eq
    (le_antisymm ((matchIndex_le_iff h).mp hindex.le) ((matchIndex_le_iff h.symm).mp hindex.ge))

/-- Of the addresses with the same care bits, none lies between two whose indices follow each other. -/
theorem adjacent_of_matchIndex_succ (h : x &&& mask = y &&& mask) (hsucc : matchIndex mask x + 1 = matchIndex mask y) :
    x.toNat < y.toNat ∧ ∀ z, z &&& mask = x &&& mask →
      (x.toNat < z.toNat → y.toNat ≤ z.toNat) ∧ (z.toNat < y.toNat → z.toNat ≤ x.toNat) := by
  refine ⟨(matchIndex_lt_iff h).mp (by omega), fun z hz => ?_⟩
  rw [← matchIndex_lt_iff hz.symm, ← matchIndex_le_iff (h.symm.trans hz.symm), ← matchIndex_lt_iff (hz.trans h),
    ← matchIndex_le_iff hz]
  omega

/-! What the stepper does to the index. -/

theorem wildcardNext_and_mask (mask x : BitVec n) : wildcardNext mask x &&& mask = x &&& mask :=
  and_mask_eq_iff.mpr fun _ => wildcardNext_care

theorem wildcardPrev_and_mask (mask x : BitVec n) : wildcardPrev mask x &&& mask = x &&& mask :=
  and_mask_eq_iff.mpr fun _ => wildcardPrev_care

theorem matchIndex_wildcardNext (mask x : BitVec n) :
    matchIndex mask (wildcardNext mask x) = (matchIndex mask x + 1) % 2 ^ dontCareCount mask (List.range n) := by
  simp only [matchIndex, List.range_eq_range']
  refine dontCareValue_of_flips (by omega) fun q _ hq => ?_
  rw [wildcardNext_flips_iff]
  exact and_iff_right (by omega)

/-- Short of the wrap, WNEXT counts the index up. -/
theorem matchIndex_wildcardNext_of_ne (h : x ||| mask ≠ BitVec.allOnes n) :
    matchIndex mask (wildcardNext mask x) = matchIndex mask x + 1 := by
  rw [← BitVec.not_not (b := x), Ne, not_or_mask_eq_allOnes_iff, ← matchIndex_eq_zero_iff] at h
  have hsum := matchIndex_add_not mask x
  rw [matchIndex_wildcardNext]
  exact Nat.mod_eq_of_lt (by omega)

/-- Short of the wrap, WPREV counts the index down. -/
theorem matchIndex_wildcardPrev_of_ne (h : x &&& ~~~mask ≠ 0#n) :
    matchIndex mask (wildcardPrev mask x) + 1 = matchIndex mask x := by
  have hnext := matchIndex_wildcardNext_of_ne (mt not_or_mask_eq_allOnes_iff.mp h)
  have hsum := matchIndex_add_not mask x
  have hsum' := matchIndex_add_not mask (wildcardNext mask (~~~x))
  rw [wildcardPrev_eq_not]
  omega

/-! The cursors that repeated WNEXT pass (R125). -/

theorem wildcardNext_iterate_and_mask (mask x : BitVec n) (j : Nat) : (wildcardNext mask)^[j] x &&& mask = x &&& mask := by
  induction j with
  | zero => rfl
  | succ j ih => rw [Function.iterate_succ_apply', wildcardNext_and_mask, ih]

theorem matchIndex_wildcardNext_iterate (mask x : BitVec n) (j : Nat) :
    matchIndex mask ((wildcardNext mask)^[j] x) = (matchIndex mask x + j) % 2 ^ dontCareCount mask (List.range n) := by
  induction j with
  | zero => exact (Nat.mod_eq_of_lt (matchIndex_lt mask x)).symm
  | succ j ih => rw [Function.iterate_succ_apply', matchIndex_wildcardNext, ih, Nat.mod_add_mod, Nat.add_assoc]

end

theorem repeated_wnext (k : CtxIndex) (j : Nat) (s : State) (c : Context) (h : s.contexts[k] = some c) :
    ∃ t, repeated (.wnext c.fam k) j s = .next t ∧
      t.contexts[k] = some { c with ip := (wildcardNext c.mask)^[j] c.ip } := by
  induction j generalizing s c with
  | zero => exact ⟨s, rfl, h⟩
  | succ j ih =>
    rw [repeated, exec_wnext h]
    exact ih _ { c with ip := wildcardNext c.mask c.ip } (Vector.getElem_set_self _)

/-- Settles O42: the `j`-th cursor has index `j` modulo `2^c`, and a matching address is determined by its index. -/
theorem steppingIsExhaustiveAndCyclic : Obligations.SteppingIsExhaustiveAndCyclic := by
  intro k s c h ⟨hbits, hmatch⟩ hfirst
  have hcare (j : Nat) : (wildcardNext c.mask)^[j] c.bits &&& c.mask = c.bits := by
    rw [wildcardNext_iterate_and_mask, ← hfirst, hmatch, hfirst]
  have hindex (j : Nat) : matchIndex c.mask ((wildcardNext c.mask)^[j] c.bits) = j % 2 ^ c.dontCares := by
    rw [matchIndex_wildcardNext_iterate, matchIndex_eq_zero_iff.mpr hbits, Nat.zero_add, Context.dontCares_eq]
  refine ⟨fun j => (wildcardNext c.mask)^[j] c.bits, fun j => hfirst ▸ repeated_wnext k j s c h, rfl, ?_, ?_, ?_⟩
  · refine eq_of_matchIndex_eq ((hcare _).trans (hcare 0).symm) ?_
    rw [hindex, Nat.mod_self, matchIndex_eq_zero_iff.mpr hbits]
  · intro i j hi hj hij
    have := congrArg (matchIndex c.mask) hij
    rwa [hindex, hindex, Nat.mod_eq_of_lt hi, Nat.mod_eq_of_lt hj] at this
  · intro x
    constructor
    · intro hx
      have hlt := matchIndex_lt c.mask x
      refine ⟨matchIndex c.mask x, hlt, eq_of_matchIndex_eq ((hcare _).trans hx.symm) ?_⟩
      rw [hindex, Context.dontCares_eq, Nat.mod_eq_of_lt hlt]
    · rintro ⟨j, -, rfl⟩
      exact hcare j

/-- Settles O43: short of the wrap the new cursor has the next index, so no matching address lies between. -/
theorem steppingIsInAddressOrder : Obligations.SteppingIsInAddressOrder := by
  intro k s c h ⟨_, hmatch⟩
  constructor
  · intro hwrap
    have hcare := wildcardNext_and_mask c.mask c.ip
    obtain ⟨hlt, hbetween⟩ := adjacent_of_matchIndex_succ hcare.symm (matchIndex_wildcardNext_of_ne hwrap).symm
    exact ⟨_, exec_wnext h, hcare.trans hmatch, hlt, fun z hz => (hbetween z (hz.trans hmatch.symm)).1⟩
  · intro hwrap
    have hcare := wildcardPrev_and_mask c.mask c.ip
    obtain ⟨hlt, hbetween⟩ := adjacent_of_matchIndex_succ hcare (matchIndex_wildcardPrev_of_ne hwrap)
    exact ⟨_, exec_wprev h, hcare.trans hmatch, hlt, fun z hz => (hbetween z (hz.trans (hcare.trans hmatch).symm)).2⟩

end Sys2Proof.Machine
end

section
/-! The masked adder's statements (spec/42_adder.md): ADD and SUB as integers modulo `2^n`, and that they undo each other. -/

namespace Sys2Proof.Machine

section
variable (f : Fam) (men : Bool) (s : State)

theorem exec_add : exec (.add f men) s =
    .next (s.withOk (onBus (addMasked (s.opA f) (s.opB f) (maskOrAll men (s.opM f)))) false) := rfl

theorem exec_sub : exec (.sub f men) s =
    .next (s.withOk (onBus (subMasked (s.opA f) (s.opB f) (maskOrAll men (s.opM f)))) false) := rfl

theorem reply_add (a b m : Bus) : reply (.add f men) a b m s =
    some { status := .ok, r := onBus (addMasked (operand f a) (operand f b) (maskOrAll men (operand f m))), flag := false } :=
  reply_of_exec (exec_add f men (s.withPorts a b m)) rfl

theorem reply_sub (a b m : Bus) : reply (.sub f men) a b m s =
    some { status := .ok, r := onBus (subMasked (operand f a) (operand f b) (maskOrAll men (operand f m))), flag := false } :=
  reply_of_exec (exec_sub f men (s.withPorts a b m)) rfl

/-- The second operand under the mask that takes part, as a number (R131, R133, R135). -/
theorem State.maskedB_toNat : (s.opB f &&& maskOrAll men (s.opM f)).toNat =
    (s.port.bBus.toNat % 2 ^ f.bits) &&& (if men then s.port.mBus.toNat % 2 ^ f.bits else 2 ^ f.bits - 1) := by
  rw [BitVec.toNat_and, State.opB, operand_toNat]
  cases men with
  | true => exact congrArg _ (operand_toNat f s.port.mBus)
  | false => exact congrArg _ BitVec.toNat_allOnes

end

/-- The encoding of the context-free commands whose mask may be set or unset (R64, R65). -/
theorem encodedBy_anyMask (op : Op) (hmen : ∀ men, op.allowsMen men = true) (hw : op.namesW = false)
    (hws : op.namesWs = false) : EncodedBy op.code (fun d => d.w = 0 ∧ d.ws = 0) op.command :=
  encodedBy_op op fun d => by simp [hmen, hw, hws]

/-- Settles O24: the result is the residue of the sum of the operands, and ADD's encoding leaves the mask free. -/
theorem addIsMaskedSum : Obligations.AddIsMaskedSum := by
  refine ⟨fun f men s => ⟨_, exec_add f men s, ?_⟩, encodedBy_anyMask .add (fun _ => rfl) rfl rfl⟩
  rw [onBus_toNat, ← State.opA_toNat, ← State.maskedB_toNat]
  exact_mod_cast truncN_toNat f.bits ((s.opA f).toNat + (s.opB f &&& maskOrAll men (s.opM f)).toNat)

/-- Settles O25: the result is the residue of the difference, which is non-negative also where the difference is not. -/
theorem subIsMaskedDifference : Obligations.SubIsMaskedDifference := by
  refine ⟨fun f men s => ⟨_, exec_sub f men s, ?_⟩, encodedBy_anyMask .sub (fun _ => rfl) rfl rfl⟩
  rw [onBus_toNat, ← State.opA_toNat, ← State.maskedB_toNat]
  exact truncN_toNat f.bits ((s.opA f).toNat - (s.opB f &&& maskOrAll men (s.opM f)).toNat)

/-! ADD and SUB undo each other (R138). -/

section
variable {n : Nat} (a b me : BitVec n)

theorem subMasked_addMasked : subMasked (addMasked a b me) b me = a := by
  rw [subMasked_eq, addMasked_eq, BitVec.add_sub_cancel]

theorem addMasked_subMasked : addMasked (subMasked a b me) b me = a := by
  rw [addMasked_eq, subMasked_eq, BitVec.sub_add_cancel]

end

/-- Settles O27: the first operand of the second command is the first one's result, and the masked operand, the same for both,
cancels modulo `2^n`. -/
theorem subUndoesAdd : Obligations.SubUndoesAdd := by
  refine fun f men s a b m => ⟨⟨_, reply_add f men s a b m, ?_⟩, ⟨_, reply_sub f men s a b m, ?_⟩⟩
  · rw [reply_sub, operand_onBus, subMasked_addMasked]
    rfl
  · rw [reply_add, operand_onBus, addMasked_subMasked]
    rfl

end Sys2Proof.Machine
end

section
/-! The wildcard context commands' statements (spec/43_wildcard_context.md): WSET, the readers WIP, WMASK and WMATCH, and WFIRST
and WLAST, whose cursors bound the matching addresses. -/

namespace Sys2Proof.Machine

/-! The six commands as whole next states (R151 to R162). -/

theorem exec_wset (f : Fam) (k : CtxIndex) (s : State) :
    exec (.wset f k) s = .next ((s.withContext k (construct f (s.opA f) (s.opM f))).withOk 0 false) := rfl

section
variable {s : State} {k : CtxIndex} {c : Context} (h : s.contexts[k] = some c)
include h

theorem exec_wip : exec (.wip c.fam k) s = .next (s.withOk (onBus c.ip) false) := State.onContext_ok _ h

theorem exec_wmask : exec (.wmask c.fam k) s = .next (s.withOk (onBus (~~~c.mask)) false) := State.onContext_ok _ h

theorem exec_wmatch : exec (.wmatch c.fam k) s = .next (s.withOk 0 (matchFlag (s.opA c.fam) c.mask c.bits)) :=
  State.onContext_ok _ h

theorem exec_wfirst (dst : CtxIndex) : exec (.wfirst c.fam dst k) s =
    .next ((s.withContext dst c.first).withOk (onBus c.bits) false) := State.onContext_ok _ h

theorem exec_wlast (dst : CtxIndex) : exec (.wlast c.fam dst k) s =
    .next ((s.withContext dst c.last).withOk (onBus (c.bits ||| ~~~c.mask)) false) := State.onContext_ok _ h

end

/-- The encoding of the commands that name a destination and a source context (R64, R65). -/
theorem encodedBy_twoContexts (op : Op) (hmen : ∀ men, op.allowsMen men = (men == 0)) (hw : op.namesW = true)
    (hws : op.namesWs = true) : EncodedBy op.code (fun d => d.men = 0) op.command :=
  encodedBy_op op fun d => by simp [hmen, hw, hws]

theorem matchFlag_eq_true_iff {n : Nat} {x mask bits : BitVec n} : matchFlag x mask bits = true ↔ x &&& mask = bits :=
  beq_iff_eq

/-- Settles O29: WSET writes what `construct` makes of the operands, whose bits are those of the ports; it needs a set mask. -/
theorem wsetConstructs : Obligations.WsetConstructs := by
  refine ⟨fun f k s => ⟨_, exec_wset f k s, rfl, State.opA_getLsbD f s, fun p => ?mask, fun p => ?bits⟩,
    encodedBy_op .wset fun d => ?legal⟩
  case mask =>
    simp only [construct, BitVec.getLsbD_not, State.opM_getLsbD]
    cases decide (p < f.bits) <;> rfl
  case bits =>
    simp only [construct, BitVec.getLsbD_and, BitVec.getLsbD_not, State.opA_getLsbD, State.opM_getLsbD]
    cases decide (p < f.bits) <;> rfl
  case legal => simp [Op.allowsMen, Op.namesW, Op.namesWs]

/-- Settles O30: WIP puts the cursor of the context it reads on the result port. -/
theorem wipReadsTheCursor : Obligations.WipReadsTheCursor :=
  ⟨fun _ _ c h => ⟨_, exec_wip h, onBus_toNat c.fam c.ip⟩,
    fun _ => checksContext_of_onContext fun _ _ => rfl, encodedBy_oneContext .wip (fun _ => rfl) rfl rfl⟩

/-- Settles O31: WMASK puts the complement of the care bits on the result port. -/
theorem wmaskReadsTheWildcardMask : Obligations.WmaskReadsTheWildcardMask := by
  refine ⟨fun _ _ c h => ⟨_, exec_wmask h, fun p => ?_⟩,
    fun _ => checksContext_of_onContext fun _ _ => rfl, encodedBy_oneContext .wmask (fun _ => rfl) rfl rfl⟩
  rw [onBus_getLsbD, BitVec.getLsbD_not]

/-- Settles O32: the flag compares the candidate's care bits with `bits` as words, which is bit by bit. -/
theorem wmatchComparesCareBits : Obligations.WmatchComparesCareBits := by
  refine ⟨fun _ s c h => ⟨_, exec_wmatch h, ?_⟩,
    fun _ => checksContext_of_onContext fun _ _ => rfl, encodedBy_oneContext .wmatch (fun _ => rfl) rfl rfl⟩
  rw [matchFlag_eq_true_iff, BitVec.eq_of_getLsbD_eq_iff]
  refine forall₂_congr fun p hp => ?_
  rw [BitVec.getLsbD_and, State.opA_getLsbD, decide_eq_true hp, Bool.true_and]

/-- Settles O33: WFIRST reads its source before it writes, so the destination takes no part. -/
theorem wfirstDerives : Obligations.WfirstDerives :=
  ⟨fun dst _ _ c h => ⟨_, exec_wfirst h dst, onBus_toNat c.fam c.bits⟩,
    fun _ _ => checksContext_of_onContext fun _ _ => rfl, encodedBy_twoContexts .wfirst (fun _ => rfl) rfl rfl⟩

/-- Settles O34: the cursor WLAST writes has every don't-care bit set. -/
theorem wlastDerives : Obligations.WlastDerives := by
  refine ⟨fun dst _ _ c h => ⟨_, _, exec_wlast h dst, fun p hp => ?_, onBus_toNat c.fam _⟩,
    fun _ _ => checksContext_of_onContext fun _ _ => rfl, encodedBy_twoContexts .wlast (fun _ => rfl) rfl rfl⟩
  rw [BitVec.getLsbD_or, getLsbD_not_of_lt hp]

theorem State.withContext_get (s : State) (k : CtxIndex) (c : Context) : (s.withContext k c).contexts[k] = some c :=
  Vector.getElem_set_self _

/-! The replies of the commands that read a context. -/

section
variable {s : State} {k : CtxIndex} {c : Context} (a b m : Bus) (h : s.contexts[k] = some c)
include h

theorem reply_wmatch (x : BitVec c.fam.bits) : reply (.wmatch c.fam k) (onBus x) b m s =
    some { status := .ok, r := 0, flag := matchFlag x c.mask c.bits } := by
  have hexec := exec_wmatch (s := s.withPorts (onBus x) b m) h
  rw [State.withPorts_opA, operand_onBus] at hexec
  exact reply_of_exec hexec rfl

theorem reply_wmatch_of_matches {x : BitVec c.fam.bits} (hx : c.Matches x) :
    reply (.wmatch c.fam k) (onBus x) b m s = some { status := .ok, r := 0, flag := true } := by
  rw [reply_wmatch b m h, matchFlag_eq_true_iff.mpr hx]

theorem reply_wfirst (dst : CtxIndex) : reply (.wfirst c.fam dst k) a b m s =
    some { status := .ok, r := onBus c.bits, flag := false } :=
  reply_of_exec (exec_wfirst (s := s.withPorts a b m) h dst) rfl

theorem reply_wlast (dst : CtxIndex) : reply (.wlast c.fam dst k) a b m s =
    some { status := .ok, r := onBus (c.bits ||| ~~~c.mask), flag := false } :=
  reply_of_exec (exec_wlast (s := s.withPorts a b m) h dst) rfl

theorem reply_wnext : reply (.wnext c.fam k) a b m s =
    some { status := .ok, r := onBus (wildcardNext c.mask c.ip), flag := false } :=
  reply_of_exec (exec_wnext (s := s.withPorts a b m) h) rfl

theorem reply_wprev : reply (.wprev c.fam k) a b m s =
    some { status := .ok, r := onBus (wildcardPrev c.mask c.ip), flag := false } :=
  reply_of_exec (exec_wprev (s := s.withPorts a b m) h) rfl

end

/-- Settles O47: the flag is the formula of R157, which the cursor meets by the invariant. -/
theorem theCursorMatches : Obligations.TheCursorMatches :=
  fun _ _ _ b m h => ⟨fun x => ⟨_, reply_wmatch b m h x, matchFlag_eq_true_iff⟩,
    fun ⟨_, hmatch⟩ => reply_wmatch_of_matches b m h hmatch⟩

/-! The cursors of WFIRST and WLAST among the matching addresses (R163, R164). -/

theorem or_not_mask_and_mask {n : Nat} (x mask : BitVec n) : (x ||| ~~~mask) &&& mask = x &&& mask := by
  rw [BitVec.and_or_distrib_right, BitVec.and_comm (~~~mask), BitVec.and_not_self]
  exact BitVec.or_zero

theorem or_not_mask_or_mask {n : Nat} (x mask : BitVec n) : x ||| ~~~mask ||| mask = BitVec.allOnes n := by
  rw [BitVec.or_assoc, BitVec.not_or_self, BitVec.or_allOnes]

theorem and_mask_or_not_mask {n : Nat} (x mask : BitVec n) : (x &&& mask) ||| ~~~mask = x ||| ~~~mask := by
  ext p hp
  simp only [BitVec.getElem_or, BitVec.getElem_and, BitVec.getElem_not]
  cases mask[p] <;> simp

section
variable {c : Context} {x : BitVec c.fam.bits}

/-- Clearing every don't-care bit of a matching address gives the cursor of WFIRST. -/
theorem Context.Matches.bits_le (hx : c.Matches x) : c.bits.toNat ≤ x.toNat := by
  rw [← hx, BitVec.toNat_and]
  exact Nat.and_le_left

/-- Setting every don't-care bit of a matching address gives the cursor of WLAST. -/
theorem Context.Matches.le_last (hx : c.Matches x) : x.toNat ≤ (c.bits ||| ~~~c.mask).toNat := by
  rw [← hx, and_mask_or_not_mask, BitVec.toNat_or]
  exact Nat.left_le_or

theorem Context.Inv.matches_bits (hinv : c.Inv) : c.Matches c.bits := by
  obtain ⟨_, hmatch⟩ := hinv
  rw [Context.Matches, ← hmatch, BitVec.and_assoc, BitVec.and_self]

theorem Context.Inv.matches_last (hinv : c.Inv) : c.Matches (c.bits ||| ~~~c.mask) :=
  (or_not_mask_and_mask c.bits c.mask).trans hinv.matches_bits

theorem Context.Inv.wildcardNext_last (hinv : c.Inv) : wildcardNext c.mask (c.bits ||| ~~~c.mask) = c.bits :=
  (wildcardNext_of_wrap (or_not_mask_or_mask c.bits c.mask)).trans hinv.matches_last

theorem Context.Inv.wildcardPrev_bits (hinv : c.Inv) : wildcardPrev c.mask c.bits = c.bits ||| ~~~c.mask := by
  obtain ⟨hbits, _⟩ := hinv
  rw [wildcardPrev_of_wrap hbits, and_mask_or_not_mask]

end

/-- Settles O48: `bits` and `bits OR wildcardMask` match, a matching address lies between them, and each is where the scan wraps
to from the other. -/
theorem firstAndLastBoundTheMatches : Obligations.FirstAndLastBoundTheMatches := by
  intro k s c a b m h hinv
  refine ⟨c.bits, c.bits ||| ~~~c.mask, reply_wfirst a b m h, reply_wlast a b m h,
    reply_wmatch_of_matches b m h hinv.matches_bits, reply_wmatch_of_matches b m h hinv.matches_last,
    fun x hx => ⟨hx.bits_le, hx.le_last⟩, ?next, ?prev⟩
  case next =>
    exact (reply_wnext a b m (s.withContext_get k c.last)).trans
      (congrArg (fun y => some (Response.mk .ok (onBus y) false)) hinv.wildcardNext_last)
  case prev =>
    exact (reply_wprev a b m (s.withContext_get k c.first)).trans
      (congrArg (fun y => some (Response.mk .ok (onBus y) false)) hinv.wildcardPrev_bits)

end Sys2Proof.Machine
end

section
/-! The composite sequences' statements (spec/44_composite_sequences.md): every line is answered OK, and what the results are. -/

namespace Sys2Proof.Machine

/-! Lines that are answered OK (R180). -/

/-- From `s` to `t` the host issued lines that were all answered OK and that left every context and the host's list as they
were. A sequence that ends by writing `c` into context `k` goes to `t` from `s.withContext k c`. -/
structure AnsweredOk (s t : State) : Prop where
  contexts : t.contexts = s.contexts
  host : t.host = s.host
  responses : ∃ rs : List Response, (∀ r ∈ rs, r.status = .ok) ∧ t.responses = s.responses ++ rs

section
variable {s t u : State}

theorem AnsweredOk.refl (s : State) : AnsweredOk s s := ⟨rfl, rfl, [], by simp, (List.append_nil _).symm⟩

theorem AnsweredOk.trans (h : AnsweredOk s t) (h' : AnsweredOk t u) : AnsweredOk s u := by
  obtain ⟨rs, hok, hrs⟩ := h.responses
  obtain ⟨rs', hok', hrs'⟩ := h'.responses
  refine ⟨h'.contexts.trans h.contexts, h'.host.trans h.host, rs ++ rs', ?_, by rw [hrs', hrs, List.append_assoc]⟩
  exact fun r hr => (List.mem_append.mp hr).elim (hok r) (hok' r)

theorem AnsweredOk.present (s : State) (l : Transaction) : AnsweredOk s (s.present l s.host) :=
  ⟨rfl, rfl, (AnsweredOk.refl s).responses⟩

theorem AnsweredOk.withOk (s : State) (r : Bus) (flag : Bool) : AnsweredOk s (s.withOk r flag) :=
  ⟨rfl, rfl, _, by simp, rfl⟩

theorem AnsweredOk.withContext (h : AnsweredOk s t) (k : CtxIndex) (c : Context) :
    AnsweredOk (s.withContext k c) (t.withContext k c) :=
  ⟨congrArg (·.set k (some c)) h.contexts, h.host, h.responses⟩

end

/-- A line whose command, with the line on the port, goes over `u` and is answered OK. -/
theorem issue_answeredOk {i : Instr} {a b m r : Bus} {flag : Bool} {s s' u : State}
    (hexec : exec i (s.present (line i a b m) s.host) = .next (u.withOk r flag)) (hu : AnsweredOk s' u) :
    ∃ t, issue (line i a b m) s = some ({ status := .ok, r := r, flag := flag }, t) ∧ AnsweredOk s' t :=
  ⟨_, issue_line (encodeThenDecode i) hexec, hu.trans (.withOk u r flag)⟩

section
variable (f : Fam) (a b m : Bus) (s : State)

theorem issue_not : ∃ t, issue (line (.not f) a b m) s =
    some ({ status := .ok, r := onBus (~~~operand f a), flag := false }, t) ∧ AnsweredOk s t :=
  issue_answeredOk (exec_not f _) (.present s _)

theorem issue_and : ∃ t, issue (line (.and f) a b m) s =
    some ({ status := .ok, r := onBus (operand f a &&& operand f b), flag := false }, t) ∧ AnsweredOk s t :=
  issue_answeredOk (exec_and f _) (.present s _)

theorem issue_or : ∃ t, issue (line (.or f) a b m) s =
    some ({ status := .ok, r := onBus (operand f a ||| operand f b), flag := false }, t) ∧ AnsweredOk s t :=
  issue_answeredOk (exec_or f _) (.present s _)

theorem issue_xor : ∃ t, issue (line (.xor f) a b m) s =
    some ({ status := .ok, r := onBus (operand f a ^^^ operand f b), flag := false }, t) ∧ AnsweredOk s t :=
  issue_answeredOk (exec_xor f _) (.present s _)

theorem issue_next : ∃ t, issue (line (.next f) a b m) s =
    some ({ status := .ok, r := onBus (operand f a + 1#f.bits), flag := false }, t) ∧ AnsweredOk s t := by
  rw [← nextAddress_eq]
  exact issue_answeredOk (exec_next f _) (.present s _)

theorem issue_prev : ∃ t, issue (line (.prev f) a b m) s =
    some ({ status := .ok, r := onBus (operand f a - 1#f.bits), flag := false }, t) ∧ AnsweredOk s t := by
  rw [← prevAddress_eq]
  exact issue_answeredOk (exec_prev f _) (.present s _)

theorem issue_wset (k : CtxIndex) : ∃ t, issue (line (.wset f k) a b m) s =
    some ({ status := .ok, r := 0, flag := false }, t) ∧
      AnsweredOk (s.withContext k (construct f (operand f a) (operand f m))) t :=
  issue_answeredOk (exec_wset f k _) ((AnsweredOk.present s _).withContext k _)

/-! The neighbours of a network (R181 to R183). -/

variable (ip mask : Bus)

theorem broadcast_answeredOk : ∃ t, broadcast f ip mask s = some (onBus (operand f ip ||| ~~~operand f mask), t) ∧
    AnsweredOk s t := by
  obtain ⟨s₁, hnot, h₁⟩ := issue_not f mask 0 0 s
  obtain ⟨s₂, hor, h₂⟩ := issue_or f ip (onBus (~~~operand f mask)) 0 s₁
  refine ⟨s₂, ?_, h₁.trans h₂⟩
  simp only [broadcast, hnot, hor, operand_onBus, Option.bind_eq_bind, Option.bind_some, Option.pure_def]

theorem nextSubnet_answeredOk : ∃ t, nextSubnet f ip mask s =
    some (onBus ((operand f ip ||| ~~~operand f mask) + 1#f.bits), t) ∧ AnsweredOk s t := by
  obtain ⟨s₁, hbc, h₁⟩ := broadcast_answeredOk f s ip mask
  obtain ⟨s₂, hnext, h₂⟩ := issue_next f (onBus (operand f ip ||| ~~~operand f mask)) 0 0 s₁
  refine ⟨s₂, ?_, h₁.trans h₂⟩
  simp only [nextSubnet, hbc, hnext, operand_onBus, Option.bind_eq_bind, Option.bind_some, Option.pure_def]

theorem prevSubnet_answeredOk : ∃ t, prevSubnet f ip mask s =
    some (onBus ((operand f ip - 1#f.bits) &&& operand f mask), t) ∧ AnsweredOk s t := by
  obtain ⟨s₁, hprev, h₁⟩ := issue_prev f ip 0 0 s
  obtain ⟨s₂, hand, h₂⟩ := issue_and f (onBus (operand f ip - 1#f.bits)) mask 0 s₁
  refine ⟨s₂, ?_, h₁.trans h₂⟩
  simp only [prevSubnet, hprev, hand, operand_onBus, Option.bind_eq_bind, Option.bind_some, Option.pure_def]

end

/-- The form in which a statement says that a sequence answers `v` with every line OK. -/
theorem exists_responses_of_answeredOk {run : Option (Bus × State)} {v : Bus} {s : State}
    (h : ∃ t, run = some (v, t) ∧ AnsweredOk s t) :
    ∃ (t : State) (rs : List Response), (∀ r ∈ rs, r.status = .ok) ∧ run = some (v, t) ∧ t.contexts = s.contexts ∧
      t.host = s.host ∧ t.responses = s.responses ++ rs := by
  obtain ⟨t, hrun, hcontexts, hhost, rs, hok, hrs⟩ := h
  exact ⟨t, rs, hok, hrun, hcontexts, hhost, hrs⟩

/-- Settles O57: the operands of each line are the sequence's own or the result of a line before, which the port carries whole. -/
theorem subnetSequences : Obligations.SubnetSequences := by
  rintro f ip mask s _ _ rfl rfl
  exact ⟨exists_responses_of_answeredOk (broadcast_answeredOk f s ip mask),
    exists_responses_of_answeredOk (nextSubnet_answeredOk f s ip mask),
    exists_responses_of_answeredOk (prevSubnet_answeredOk f s ip mask)⟩

/-! FINDWILDCARD (R185). -/

/-- What the loop of FINDWILDCARD has at hand once it has seen `a` and `xs`: `acc` is the AND of these addresses, and `dc` is 0
exactly where they all agree. -/
structure Combines (f : Fam) (a : Bus) (xs : List Bus) (acc dc : BitVec f.bits) : Prop where
  acc_iff : ∀ p, p < f.bits → (acc.getLsbD p = true ↔ ∀ x ∈ a :: xs, x.getLsbD p = true)
  dc_iff : ∀ p, p < f.bits → (dc.getLsbD p = false ↔ ∀ x ∈ a :: xs, x.getLsbD p = a.getLsbD p)

section
variable {f : Fam} {a : Bus} {xs : List Bus} {acc dc : BitVec f.bits}

theorem Combines.single (f : Fam) (a : Bus) : Combines f a [] (operand f a) 0#f.bits where
  acc_iff p hp := by simp only [operand_getLsbD, hp, decide_true, Bool.true_and, List.forall_mem_singleton]
  dc_iff p _ := by simp only [BitVec.getLsbD_zero, List.forall_mem_singleton]

/-- Where the addresses seen all agree, their AND is what each of them has. -/
theorem Combines.acc_of_dc (h : Combines f a xs acc dc) {p : Nat} (hp : p < f.bits) (hdc : dc.getLsbD p = false) :
    acc.getLsbD p = a.getLsbD p := by
  have hagree := (h.dc_iff p hp).mp hdc
  rw [Bool.eq_iff_iff, h.acc_iff p hp]
  exact ⟨fun hall => hall a List.mem_cons_self, fun ha x hx => (hagree x hx).trans ha⟩

/-- One turn of the loop: where the addresses before all agree, the running AND stands for any of them. -/
theorem Combines.append (h : Combines f a xs acc dc) (x : Bus) :
    Combines f a (xs ++ [x]) (acc &&& operand f x) (dc ||| (acc ^^^ operand f x)) where
  acc_iff p hp := by
    simp only [← List.cons_append, List.forall_mem_append, List.forall_mem_singleton, ← h.acc_iff p hp, BitVec.getLsbD_and,
      operand_getLsbD, hp, decide_true, Bool.true_and, Bool.and_eq_true]
  dc_iff p hp := by
    simp only [← List.cons_append, List.forall_mem_append, List.forall_mem_singleton, ← h.dc_iff p hp, BitVec.getLsbD_or,
      BitVec.getLsbD_xor, operand_getLsbD, hp, decide_true, Bool.true_and, Bool.or_eq_false_iff]
    refine and_congr_right fun hdc => ?_
    rw [h.acc_of_dc hp hdc, bne_eq_false_iff_eq, eq_comm]

/-- No bit of the AND is a don't-care bit, so the care bits leave it whole. -/
theorem Combines.acc_and_not_dc (h : Combines f a xs acc dc) : acc &&& ~~~dc = acc := by
  refine BitVec.eq_of_getLsbD_eq fun p hp => ?_
  simp only [BitVec.getLsbD_and, BitVec.getLsbD_not, hp, decide_true, Bool.true_and, Bool.and_eq_left_iff_imp,
    Bool.not_eq_true']
  intro hacc
  have hall := (h.acc_iff p hp).mp hacc
  exact (h.dc_iff p hp).mpr fun x hx => (hall x hx).trans (hall a List.mem_cons_self).symm

/-- The loop combines the addresses seen before it with those it goes through. -/
theorem findWildcardFold_answeredOk (extra : List Bus) (h : Combines f a xs acc dc) (s : State) :
    ∃ (acc' dc' : BitVec f.bits) (t : State),
      findWildcardFold f extra (onBus acc) (onBus dc) s = some (onBus acc', onBus dc', t) ∧ AnsweredOk s t ∧
      Combines f a (xs ++ extra) acc' dc' := by
  induction extra generalizing xs acc dc s with
  | nil => exact ⟨acc, dc, s, rfl, .refl s, by rwa [List.append_nil]⟩
  | cons x rest ih =>
    obtain ⟨s₁, hxor, h₁⟩ := issue_xor f (onBus acc) x 0 s
    obtain ⟨s₂, hor, h₂⟩ := issue_or f (onBus dc) (onBus (acc ^^^ operand f x)) 0 s₁
    obtain ⟨s₃, hand, h₃⟩ := issue_and f (onBus acc) x 0 s₂
    obtain ⟨acc', dc', t, hfold, ht, hcombines⟩ := ih (h.append x) s₃
    simp only [operand_onBus] at hxor hor hand
    refine ⟨acc', dc', t, ?_, ((h₁.trans h₂).trans h₃).trans ht, by rwa [List.append_cons]⟩
    simp only [findWildcardFold, hxor, hor, hand, hfold, Option.bind_eq_bind, Option.bind_some]

end

/-- FINDWILDCARD constructs its context from the AND of the addresses and the positions where they differ. -/
theorem findWildcard_answeredOk (f : Fam) (k : CtxIndex) (a b : Bus) (extra : List Bus) (s : State) :
    ∃ (acc dc : BitVec f.bits) (t : State), findWildcard f k a b extra s = some t ∧
      AnsweredOk (s.withContext k (construct f acc dc)) t ∧ Combines f a (b :: extra) acc dc := by
  have hpair : Combines f a [b] (operand f a &&& operand f b) (operand f a ^^^ operand f b) := by
    simpa using (Combines.single f a).append b
  obtain ⟨s₁, hand, h₁⟩ := issue_and f a b 0 s
  obtain ⟨s₂, hxor, h₂⟩ := issue_xor f a b 0 s₁
  obtain ⟨acc, dc, s₃, hfold, h₃, hcombines⟩ := findWildcardFold_answeredOk extra hpair s₂
  obtain ⟨t, hwset, ht⟩ := issue_wset f (onBus acc) 0 (onBus dc) s₃ k
  rw [operand_onBus, operand_onBus] at ht
  refine ⟨acc, dc, t, ?_, (((h₁.trans h₂).trans h₃).withContext k _).trans ht, hcombines⟩
  simp only [findWildcard, hand, hxor, hfold, hwset, Option.bind_eq_bind, Option.bind_some, Option.pure_def]

/-- Settles O59: the loop keeps that it combines the addresses seen, and WSET constructs the context from what it ends with. -/
theorem findWildcardFolds : Obligations.FindWildcardFolds := by
  intro f k a b extra s
  obtain ⟨acc, dc, t, hrun, ⟨hcontexts, hhost, rs, hok, hrs⟩, hcombines⟩ := findWildcard_answeredOk f k a b extra s
  refine ⟨construct f acc dc, t, rs, hok, hrun, hcontexts, hhost, hrs, rfl, hcombines.acc_and_not_dc, hcombines.acc_iff,
    fun p hp => ?care⟩
  case care =>
    rw [← hcombines.dc_iff p hp, construct, BitVec.getLsbD_not]
    simp only [hp, decide_true, Bool.true_and, Bool.not_eq_true']

end Sys2Proof.Machine
end

section
/-! The exceptions' statements (spec/60_exceptions.md): which status a transaction reports, and that an error changes nothing. -/

namespace Sys2Proof.Machine

/-! The checks of R204, as the status they come to. -/

/-- What the checks on context `k` come to for a command of length `f` (R204 steps 2 and 3). -/
def State.readStatus (s : State) (k : CtxIndex) (f : Fam) : Status :=
  match s.readContext k f with
  | .ok _ => .ok
  | .error e => e

/-- What the checks of a legal command come to (R204 steps 2 to 4). -/
def State.commandStatus (s : State) (i : Instr) : Status :=
  match i.reads with
  | none => .ok
  | some k => s.readStatus k i.fam

/-- What all the checks come to for a command word (R204). -/
def State.checkStatus (s : State) (cmd : CmdWord) : Status :=
  match decode cmd with
  | .ok i => s.commandStatus i
  | .error _ => .illegal

section
variable {s : State} {k : CtxIndex} {f : Fam} {c : Context} {i : Instr} {cmd : CmdWord}

theorem State.readStatus_none (h : s.contexts[k] = none) : s.readStatus k f = .winvalid := by
  rw [State.readStatus, State.readContext_none f h]

theorem State.readStatus_family (h : s.contexts[k] = some c) (hf : c.fam ≠ f) : s.readStatus k f = .family := by
  rw [State.readStatus, State.readContext_some f h, if_neg hf]

theorem State.readStatus_ok (h : s.contexts[k] = some c) (hf : c.fam = f) : s.readStatus k f = .ok := by
  rw [State.readStatus, State.readContext_some f h, if_pos hf]

theorem State.commandStatus_none (h : i.reads = none) : s.commandStatus i = .ok := by
  simp only [State.commandStatus, h]

theorem State.commandStatus_some (h : i.reads = some k) : s.commandStatus i = s.readStatus k i.fam := by
  simp only [State.commandStatus, h]

theorem State.checkStatus_legal (h : decode cmd = .ok i) : s.checkStatus cmd = s.commandStatus i := by
  simp only [State.checkStatus, h]

theorem State.checkStatus_illegal (h : ∀ i, decode cmd ≠ .ok i) : s.checkStatus cmd = .illegal := by
  cases hdecode : decode cmd with
  | ok i => exact absurd hdecode (h i)
  | error _ => simp only [State.checkStatus, hdecode]

theorem State.checkStatus_of_reads (hdecode : decode cmd = .ok i) (hreads : i.reads = some k) :
    s.checkStatus cmd = s.readStatus k i.fam :=
  (State.checkStatus_legal hdecode).trans (State.commandStatus_some hreads)

end

/-! What is reported. -/

/-- From `s` to `t` one response is added, its status is `e`, and if `e` is an error that response is all that changes. -/
structure Reports (e : Status) (s t : State) : Prop where
  responses : ∃ r, t.responses = s.responses ++ [r] ∧ r.status = e
  eq_raise : e ≠ .ok → t = s.raise e

theorem Reports.raise (s : State) (e : Status) : Reports e s (s.raise e) := ⟨⟨_, rfl, rfl⟩, fun _ => rfl⟩

/-- A command that executed may have changed anything, so that its response is OK is all there is to say. -/
theorem Reports.ok {s t : State} {r : Response} (hr : t.responses = s.responses ++ [r]) (hok : r.status = .ok) :
    Reports .ok s t := ⟨⟨r, hr, hok⟩, fun h => absurd rfl h⟩

theorem Reports.status_eq {e : Status} {s t : State} {r : Response} (h : Reports e s t)
    (hr : t.responses = s.responses ++ [r]) : r.status = e := by
  obtain ⟨r', hr', hstatus⟩ := h.responses
  obtain rfl : r' = r := by simpa using hr'.symm.trans hr
  exact hstatus

theorem State.onContext_reports (s : State) (k : CtxIndex) (f : Fam) {effect : Context → State}
    (he : ∀ c, Reports .ok s (effect c)) : ∃ t, s.onContext k f effect = .next t ∧ Reports (s.readStatus k f) s t := by
  rcases s.onContext_cases k f effect with ⟨hk, ht⟩ | ⟨c, hk, hf, ht⟩ | ⟨c, hk, hf, ht⟩
  · exact ⟨_, ht, State.readStatus_none hk ▸ .raise s _⟩
  · exact ⟨_, ht, State.readStatus_family hk hf ▸ .raise s _⟩
  · exact ⟨_, ht, State.readStatus_ok hk hf ▸ he c⟩

/-- A command reports what the checks on the context it reads come to; one that reads none reports OK. -/
theorem exec_reports (i : Instr) (s : State) : ∃ t, exec i s = .next t ∧ Reports (s.commandStatus i) s t := by
  cases i with
  | wnext f k => exact s.onContext_reports k f fun _ => .ok rfl rfl
  | wprev f k => exact s.onContext_reports k f fun _ => .ok rfl rfl
  | wip f k => exact s.onContext_reports k f fun _ => .ok rfl rfl
  | wmask f k => exact s.onContext_reports k f fun _ => .ok rfl rfl
  | wmatch f k => exact s.onContext_reports k f fun _ => .ok rfl rfl
  | wfirst f k src => exact s.onContext_reports src f fun _ => .ok rfl rfl
  | wlast f k src => exact s.onContext_reports src f fun _ => .ok rfl rfl
  | _ => exact ⟨_, rfl, .ok rfl rfl⟩

theorem State.transact_reports (s : State) : ∃ t, s.transact = .next t ∧ Reports (s.checkStatus s.port.cmd) s t := by
  cases hdecode : decode s.port.cmd with
  | ok i =>
    rw [State.transact_ok hdecode, State.checkStatus_legal hdecode]
    exact exec_reports i s
  | error e =>
    rw [State.transact_error hdecode, State.checkStatus_illegal (by simp [hdecode])]
    exact ⟨_, rfl, .raise s _⟩

/-- A step with a transaction to issue reports what the checks come to with the transaction on the port. -/
theorem step_reports {s : State} {t : Transaction} {rest : List Transaction} (h : s.host = t :: rest) :
    ∃ u, step s = .next u ∧ Reports ((s.present t rest).checkStatus t.cmd) (s.present t rest) u := by
  rw [step_cons h]
  exact State.transact_reports _

/-- Settles O49: the status added is the one the checks come to, and a transaction that comes to an error only raises it. -/
theorem errorsChangeNothing : Obligations.ErrorsChangeNothing := by
  intro s u t rest r hhost hstep hadded herror
  obtain ⟨_, hstep', hreports⟩ := step_reports hhost
  cases hstep'.symm.trans hstep
  rw [hreports.status_eq hadded] at herror
  have hu := hreports.eq_raise herror
  obtain rfl : r = { status := _, r := 0, flag := false } := by simpa [hu] using hadded.symm
  exact ⟨hu, rfl, rfl⟩

/-- Settles O50: the status added is the one the checks come to, taken in their order. -/
theorem statusFollowsTheChecks : Obligations.StatusFollowsTheChecks := by
  refine ⟨fun s t rest hhost => ?_, rfl, rfl, rfl, rfl⟩
  obtain ⟨u, hstep, ⟨r, hadded, hstatus⟩, -⟩ := step_reports hhost
  refine ⟨u, r, hstep, hadded, ?illegal, ?readsNothing, ?winvalid, ?family, ?ok⟩ <;> rw [hstatus]
  case illegal => exact State.checkStatus_illegal
  case readsNothing =>
    exact fun i hdecode hreads => (State.checkStatus_legal hdecode).trans (State.commandStatus_none hreads)
  case winvalid =>
    exact fun i k hdecode hreads hk => (State.checkStatus_of_reads hdecode hreads).trans (State.readStatus_none hk)
  case family =>
    exact fun i k c hdecode hreads hk hf =>
      (State.checkStatus_of_reads hdecode hreads).trans (State.readStatus_family hk hf)
  case ok =>
    exact fun i k c hdecode hreads hk hf => (State.checkStatus_of_reads hdecode hreads).trans (State.readStatus_ok hk hf)

end Sys2Proof.Machine
end

section
/-! The invariants of the valid contexts and the frame of a command (spec/10_state.md R23 to R29). -/

namespace Sys2Proof.Machine

/-! What a command writes keeps the invariants (R23, R24). -/

theorem and_mask_and_not_mask {n : Nat} (x mask : BitVec n) : x &&& mask &&& ~~~mask = 0#n := by
  rw [BitVec.and_assoc, BitVec.and_not_self]
  exact BitVec.and_zero

theorem construct_inv (f : Fam) (ip wildcardMask : BitVec f.bits) : (construct f ip wildcardMask).Inv :=
  ⟨and_mask_and_not_mask ip (~~~wildcardMask), rfl⟩

theorem Context.Inv.matches_ip {c : Context} (hinv : c.Inv) : c.Matches c.ip := by
  obtain ⟨_, hmatch⟩ := hinv
  exact hmatch

/-- The fixed fields are carried over, so only the new cursor has to match. -/
theorem Context.Inv.withCursor {c : Context} {y : BitVec c.fam.bits} (hinv : c.Inv) (hy : c.Matches y) :
    Context.Inv { c with ip := y } := by
  obtain ⟨hbits, _⟩ := hinv
  exact ⟨hbits, hy⟩

section
variable {s t : State}

theorem State.Inv.setContext (hs : s.Inv) (k : CtxIndex) {c : Context} (hc : c.Inv) : (s.setContext k c).Inv := by
  intro j d hd
  rw [State.setContext_get] at hd
  split at hd
  · cases hd
    exact hc
  · exact hs j d hd

/-- The checks of R204 leave the contexts as they are, and the effect works on a context that keeps the invariants. -/
theorem State.onContext_inv {k : CtxIndex} {f : Fam} {effect : Context → State} (hs : s.Inv)
    (h : s.onContext k f effect = .next t) (he : ∀ c, c.Inv → (effect c).Inv) : t.Inv := by
  rcases s.onContext_cases k f effect with ⟨_, ho⟩ | ⟨_, _, _, ho⟩ | ⟨c, hk, _, ho⟩ <;> cases ho.symm.trans h
  · exact hs
  · exact hs
  · exact he c (hs k c hk)

theorem exec_inv {i : Instr} (hs : s.Inv) (h : exec i s = .next t) : t.Inv := by
  cases i with
  | wset f k =>
    cases h
    exact hs.setContext k (construct_inv f _ _)
  | wnext f k =>
    exact State.onContext_inv hs h fun c hc =>
      hs.setContext k (hc.withCursor ((wildcardNext_and_mask c.mask c.ip).trans hc.matches_ip))
  | wprev f k =>
    exact State.onContext_inv hs h fun c hc =>
      hs.setContext k (hc.withCursor ((wildcardPrev_and_mask c.mask c.ip).trans hc.matches_ip))
  | wfirst f k src => exact State.onContext_inv hs h fun _ hc => hs.setContext k (hc.withCursor hc.matches_bits)
  | wlast f k src => exact State.onContext_inv hs h fun _ hc => hs.setContext k (hc.withCursor hc.matches_last)
  | wip f k => exact State.onContext_inv hs h fun _ _ => hs
  | wmask f k => exact State.onContext_inv hs h fun _ _ => hs
  | wmatch f k => exact State.onContext_inv hs h fun _ _ => hs
  | _ =>
    cases h
    exact hs

theorem State.transact_inv (hs : s.Inv) (h : s.transact = .next t) : t.Inv := by
  cases hd : decode s.port.cmd with
  | ok i => exact exec_inv hs ((State.transact_ok hd).symm.trans h)
  | error e =>
    cases (State.transact_error hd).symm.trans h
    exact hs

end

/-- A run that is over stays as it is (R233). -/
theorem step_nil {s : State} (h : s.host = []) : step s = .next s := by
  simp only [step, h]

/-- Settles O51: a value is only written by WSET, which constructs it so, or derived from one that keeps the invariants by a
cursor that matches. -/
theorem stepKeepsContextInvariants : Obligations.StepKeepsContextInvariants := by
  intro s t hs h
  cases hhost : s.host with
  | nil =>
    cases (step_nil hhost).symm.trans h
    exact hs
  | cons x rest =>
    exact State.transact_inv (s := s.present x rest) hs ((step_cons hhost).symm.trans h)

/-- Settles O52: after reset no context holds a value. -/
theorem resetMeetsContextInvariants : Obligations.ResetMeetsContextInvariants := by
  intro k c hc
  cases (State.reset_context k).symm.trans hc

/-! The frame of a command (R26, R27, R29). -/

theorem WritesAtMost.frame {w : Option CtxIndex} {s t : State} {j : CtxIndex} (h : WritesAtMost w s t) (hj : w ≠ some j) :
    t.contexts[j] = s.contexts[j] := by
  obtain hsame | ⟨k, c, rfl, hset⟩ := h
  · rw [hsame]
  · have hjk : j ≠ k := fun e => hj (congrArg some e.symm)
    rw [hset, State.setContext_get, if_neg hjk]

/-- A command that moves the cursor of context `k` keeps the value there but for the cursor, also where it is refused. -/
theorem State.onContext_moveCursor_get {s t : State} {k : CtxIndex} {f : Fam} {c : Context}
    (next : (c : Context) → BitVec c.fam.bits) (hk : s.contexts[k] = some c)
    (h : (s.onContext k f fun c => s.moveCursor k c (next c)) = .next t) :
    ∃ y, t.contexts[k] = some { c with ip := y } := by
  by_cases hf : c.fam = f
  · subst hf
    cases (State.onContext_ok _ hk).symm.trans h
    exact ⟨next c, s.withContext_get k { c with ip := next c }⟩
  · cases (State.onContext_family _ hk hf).symm.trans h
    exact ⟨c.ip, hk⟩

/-- Settles O53: a command writes at most the context of its row in R27, and WNEXT and WPREV move its cursor. -/
theorem commandsWriteOnlyTheirContext : Obligations.CommandsWriteOnlyTheirContext := by
  constructor
  · intro i s t h
    have hframe (j : CtxIndex) := (exec_writesAtMost h).frame (j := j)
    obtain ⟨cs, r, hexec⟩ := exec_cases i s
    cases hexec.symm.trans h
    exact ⟨rfl, rfl, ⟨r, rfl⟩, hframe⟩
  · rintro i f k s t c (rfl | rfl) hk h
    · exact State.onContext_moveCursor_get (fun c => wildcardNext c.mask c.ip) hk h
    · exact State.onContext_moveCursor_get (fun c => wildcardPrev c.mask c.ip) hk h

end Sys2Proof.Machine
end

section
/-! Runs (spec/20_memory.md R52, spec/70_reset_and_hazards.md R233): a run answers its whole list, and then is over. -/

namespace Sys2Proof.Machine

/-- Settles O7: the step of a run that is over. -/
theorem stepWithNothingToIssue : Obligations.StepWithNothingToIssue := fun _ => step_nil

theorem run_succ {s t : State} (h : step s = .next t) (n : Nat) : Host.Core.run core (n + 1) s = Host.Core.run core n t := by
  have hcore : core.step s = .next t := h
  simp only [Host.Core.run, hcore]

theorem run_nil {s : State} (h : s.host = []) (n : Nat) : Host.Core.run core n s = .next s := by
  induction n with
  | zero => rfl
  | succ n ih => rw [run_succ (step_nil h), ih]

/-- Once as many steps are taken as there were transactions to issue, the run is over, however many more follow. -/
theorem run_answers (ts : List Transaction) (s : State) (h : s.host = ts) :
    ∃ (t : State) (rs : List Response), t.host = [] ∧ t.responses = s.responses ++ rs ∧ rs.length = ts.length ∧
      ∀ n, Host.Core.run core (ts.length + n) s = .next t := by
  induction ts generalizing s with
  | nil => exact ⟨s, [], h, (List.append_nil _).symm, rfl, fun n => run_nil h _⟩
  | cons x rest ih =>
    obtain ⟨u, r, hstep, -, hhost, hadded⟩ := everyTransactionIsAnswered s x rest h
    obtain ⟨t, rs, hover, hrs, hlength, hrun⟩ := ih u hhost
    refine ⟨t, r :: rs, hover, by rw [hrs, hadded, List.append_assoc, List.singleton_append],
      by rw [List.length_cons, hlength, List.length_cons], fun n => ?_⟩
    rw [List.length_cons, Nat.add_right_comm, run_succ hstep, hrun]

/-- Settles O9: each step answers the first transaction of the list, so the list is used up as it is long. -/
theorem runAnswersTheWholeList : Obligations.RunAnswersTheWholeList := by
  intro s
  obtain ⟨t, rs, hover, hrs, hlength, hrun⟩ := run_answers s.host s rfl
  exact ⟨t, rs, hrun 0, hover, hrs, hlength, hrun⟩

end Sys2Proof.Machine
end

section
/-! Commands issued twice (spec/20_memory.md R57). -/

namespace Sys2Proof.Machine

/-- Writing what already stands in a context changes nothing. -/
theorem State.contexts_set_self {s : State} {k : CtxIndex} {c : Context} (h : s.contexts[k] = some c) :
    s.contexts.set k (some c) = s.contexts := by
  rw [← h]
  exact Vector.set_getElem_self _

theorem exec_port {i : Instr} {s t : State} (h : exec i s = .next t) : t.port = s.port := by
  obtain ⟨cs, r, hexec⟩ := exec_cases i s
  cases hexec.symm.trans h
  rfl

/-- A command that writes no context answers the same again. -/
theorem exec_repeats_answer {i : Instr} {s t u : State} (hwrites : i.writes = none) (h : exec i s = .next t)
    (h' : exec i t = .next u) :
    t.contexts = s.contexts ∧ ∃ r, t.responses = s.responses ++ [r] ∧ u.responses = t.responses ++ [r] := by
  have hcontexts : t.contexts = s.contexts := by
    obtain hsame | ⟨k, c, hk, -⟩ := exec_writesAtMost h
    · exact hsame
    · cases hwrites.symm.trans hk
  have hport := exec_port h
  obtain ⟨hanswers, -⟩ := exec_answersAlike (fun _ => by rw [State.opA, State.opA, hport])
    (fun _ => by rw [State.opB, State.opB, hport]) (fun _ => by rw [State.opM, State.opM, hport])
    (fun k _ => by rw [hcontexts]) h h'
  exact ⟨hcontexts, hanswers⟩

section
variable {s t u : State} {dst src : CtxIndex} {derived : Context → Context}
  (hfam : ∀ c, (derived c).fam = c.fam) (hself : ∀ c, derived (derived c) = derived c)
include hfam hself

/-- Once a value is derived, the source, whether it is the destination or not, holds one that derives the same. -/
theorem State.derive_get_source {c : Context} (h : s.contexts[src] = some c) :
    ∃ c', (s.derive dst (derived c)).contexts[src] = some c' ∧ c'.fam = c.fam ∧ derived c' = derived c := by
  by_cases hdst : src = dst
  · subst hdst
    exact ⟨derived c, s.withContext_get src _, hfam c, hself c⟩
  · exact ⟨c, (s.setContext_get dst src _).trans ((if_neg hdst).trans h), rfl, rfl⟩

/-- Deriving a value twice leaves what deriving it once leaves. -/
theorem contexts_eq_of_derive_twice {f : Fam} (h : (s.onContext src f fun c => s.derive dst (derived c)) = .next t)
    (h' : (t.onContext src f fun c => t.derive dst (derived c)) = .next u) : u.contexts = t.contexts := by
  rcases s.onContext_cases src f _ with ⟨hk, ho⟩ | ⟨c, hk, hf, ho⟩ | ⟨c, hk, rfl, ho⟩ <;> cases ho.symm.trans h
  · cases (State.onContext_none (s := s.raise .winvalid) f _ hk).symm.trans h'
    rfl
  · cases (State.onContext_family (s := s.raise .family) _ hk hf).symm.trans h'
    rfl
  · obtain ⟨c', hk', hfam', hderived⟩ := State.derive_get_source (dst := dst) hfam hself hk
    rw [← hfam'] at h'
    cases (State.onContext_ok _ hk').symm.trans h'
    rw [hderived]
    exact State.contexts_set_self (s := s.derive dst (derived c)) (s.withContext_get dst _)

end

theorem Instr.writes_of_reader {i : Instr} (h : i.op ∈ [Op.wip, Op.wmask, Op.wmatch]) : i.writes = none := by
  cases i with
  | wnext | wprev | wset | wfirst | wlast => simp [Instr.op] at h
  | _ => rfl

/-- Settles O56: the reading commands write no context, what WSET constructs depends on the ports only, and what WFIRST and
WLAST derive derives itself. -/
theorem readingAndDerivingAreIdempotent : Obligations.ReadingAndDerivingAreIdempotent := by
  intro i s t u h h'
  refine ⟨fun hop => exec_repeats_answer (Instr.writes_of_reader hop) h h', fun hop => ?_⟩
  cases i with
  | wset f k =>
    cases h
    cases h'
    exact State.contexts_set_self (s := s.withContext k _) (s.withContext_get k _)
  | wfirst f k src => exact contexts_eq_of_derive_twice (derived := .first) (fun _ => rfl) (fun _ => rfl) h h'
  | wlast f k src => exact contexts_eq_of_derive_twice (derived := .last) (fun _ => rfl) (fun _ => rfl) h h'
  | _ => simp [Instr.op] at hop

end Sys2Proof.Machine
end

section
/-! The first transaction after reset (spec/70_reset_and_hazards.md R221). -/

namespace Sys2Proof.Machine

/-- The response of a command that reads no context is OK, and is the same in every state. -/
theorem reply_of_reads_none {i : Instr} (h : i.reads = none) (a b m : Bus) :
    ∃ r, r.status = .ok ∧ ∀ s, reply i a b m s = some r := by
  obtain ⟨t, ht, ⟨r, hr, hok⟩, -⟩ := exec_reports i (State.reset.withPorts a b m)
  rw [State.commandStatus_none h] at hok
  refine ⟨r, hok, fun s => ?_⟩
  obtain ⟨cs, _, hexec⟩ := exec_cases i (s.withPorts a b m)
  obtain ⟨⟨r', hr', hadded⟩, -⟩ := exec_answersAlike (s := State.reset.withPorts a b m)
    (s' := s.withPorts a b m) (fun _ => rfl) (fun _ => rfl) (fun _ => rfl) (fun k hk => by cases h.symm.trans hk) ht hexec
  obtain rfl : r' = r := by simpa using hr'.symm.trans hr
  exact reply_of_exec hexec hadded

theorem reply_of_context_none {i : Instr} {k : CtxIndex} {s : State} (h : i.reads = some k) (hk : s.contexts[k] = none)
    (a b m : Bus) : reply i a b m s = some { status := .winvalid, r := 0, flag := false } := by
  obtain ⟨t, ht, hreports⟩ := exec_reports i (s.withPorts a b m)
  rw [State.commandStatus_some h, State.readStatus_none (s := s.withPorts a b m) hk] at hreports
  cases hreports.eq_raise (by decide)
  exact reply_of_exec ht rfl

/-- Settles O11: after reset no context holds a value, and the other commands look at none. -/
theorem straightAfterReset : Obligations.StraightAfterReset := by
  intro i a b m
  constructor
  · intro hreads
    obtain ⟨r, hok, hreply⟩ := reply_of_reads_none hreads a b m
    exact ⟨r, hreply _, hok, hreply⟩
  · intro hreads
    obtain ⟨k, hk⟩ := Option.ne_none_iff_exists'.mp hreads
    exact reply_of_context_none hk (State.reset_context k) a b m

end Sys2Proof.Machine
end

section
/-! The worked examples of the encoding (spec/30_encoding.md section 4). -/

namespace Sys2Proof

theorem exists_decode_error_iff (c : CmdWord) : (∃ e, decode c = .error e) ↔ (fieldsOf c).wellFormed = false := by
  rw [← Bool.not_eq_true, ← decode_ok_iff_wellFormed]
  cases decode c <;> simp

end Sys2Proof

namespace Sys2Proof.Machine

/-- Settles O5: a worked word is the word of its command, and the fields of an illegal example fail a test of R68. -/
theorem workedWordsDecode : Obligations.WorkedWordsDecode := by
  simp only [Obligations.WorkedWordsDecode, decode_eq_ok_iff_encode, exists_decode_error_iff, List.forall_mem_cons,
    List.not_mem_nil, false_imp_iff, implies_true]
  decide

end Sys2Proof.Machine
end

section
/-! Further statements on the steppers (spec/41_stepper.md): the closed forms of the scans, and that they undo each other. -/

namespace Sys2Proof.Machine

section
variable {n : Nat} (mask x : BitVec n)

/-! With every bit don't-care the scans add and subtract one (R128). -/

theorem matchIndex_zero_mask : matchIndex 0#n x = x.toNat := by
  rw [matchIndex, List.range_eq_range', dontCareValue_zero_mask, pow_zero, Nat.div_one, Nat.mod_eq_of_lt x.isLt]

theorem dontCareCount_zero_mask : dontCareCount 0#n (List.range n) = n := by
  simp [dontCareCount]

theorem wildcardNext_zero_mask : wildcardNext 0#n x = x + 1#n := by
  refine BitVec.eq_of_toNat_eq ?_
  rw [← matchIndex_zero_mask, matchIndex_wildcardNext, matchIndex_zero_mask, dontCareCount_zero_mask, BitVec.toNat_add,
    BitVec.toNat_ofNat, Nat.add_mod_mod]

theorem not_not_add_one : ~~~(~~~x + 1#n) = x - 1#n := by
  rw [← BitVec.neg_eq_not_add, BitVec.not_neg, BitVec.sub_eq_add_neg]

theorem wildcardPrev_zero_mask : wildcardPrev 0#n x = x - 1#n := by
  rw [wildcardPrev_eq_not, wildcardNext_zero_mask, not_not_add_one]

/-! The closed forms (R119, R123). -/

/-- With the care bits set, the carry of a plain increment passes them as the scan skips them. -/
theorem carryReaches_or_mask (q : Nat) : CarryReaches 0#n (x ||| mask) 0 q ↔ CarryReaches mask x 0 q := by
  refine forall₃_congr fun r _ _ => ?_
  rw [BitVec.getLsbD_or, BitVec.getLsbD_zero]
  cases mask.getLsbD r <;> simp

/-- The scan and the plain increment flip a don't-care bit in the same case, when the carry reaches it. -/
theorem wildcardNext_closed_form :
    wildcardNext mask x = (((x ||| mask) + 1#n) &&& ~~~mask) ||| (x &&& mask) := by
  rw [← wildcardNext_zero_mask]
  refine BitVec.eq_of_getLsbD_eq fun q hq => ?_
  rw [BitVec.getLsbD_or, BitVec.getLsbD_and, BitVec.getLsbD_and, getLsbD_not_of_lt hq]
  cases hm : mask.getLsbD q
  · have hscan := wildcardNext_flips_iff mask x q
    have hplain := wildcardNext_flips_iff 0#n (x ||| mask) q
    rw [carryReaches_or_mask, BitVec.getLsbD_or, BitVec.getLsbD_zero] at hplain
    grind
  · rw [wildcardNext_care hm, Bool.not_true, Bool.and_false, Bool.false_or, Bool.and_true]

/-- Each bit comes from one side of a selection by the mask, so the complement goes to the sides. -/
theorem not_select (y z : BitVec n) : ~~~((y &&& ~~~mask) ||| (z &&& mask)) = (~~~y &&& ~~~mask) ||| (~~~z &&& mask) := by
  ext q hq
  simp only [BitVec.getElem_or, BitVec.getElem_and, BitVec.getElem_not]
  cases mask[q] <;> simp

theorem wildcardPrev_closed_form :
    wildcardPrev mask x = (((x &&& ~~~mask) - 1#n) &&& ~~~mask) ||| (x &&& mask) := by
  have hor : ~~~x ||| mask = ~~~(x &&& ~~~mask) := by rw [BitVec.not_and, BitVec.not_not]
  rw [wildcardPrev_eq_not, wildcardNext_closed_form, not_select, hor, not_not_add_one, BitVec.not_not]

/-! The scans undo each other (R127). -/

/-- WPREV counts the index down modulo the number of matching addresses. -/
theorem matchIndex_wildcardPrev_succ :
    (matchIndex mask (wildcardPrev mask x) + 1) % 2 ^ dontCareCount mask (List.range n) = matchIndex mask x := by
  by_cases hwrap : x &&& ~~~mask = 0#n
  · have hzero : matchIndex mask (~~~wildcardPrev mask x) = 0 := by
      rw [matchIndex_eq_zero_iff, ← not_or_mask_eq_allOnes_iff, BitVec.not_not, wildcardPrev_of_wrap hwrap,
        or_not_mask_or_mask]
    have hlast := matchIndex_add_not mask (wildcardPrev mask x)
    rw [hzero, Nat.add_zero] at hlast
    rw [hlast, Nat.mod_self, matchIndex_eq_zero_iff.mpr hwrap]
  · rw [matchIndex_wildcardPrev_of_ne hwrap, Nat.mod_eq_of_lt (matchIndex_lt mask x)]

theorem wildcardNext_wildcardPrev : wildcardNext mask (wildcardPrev mask x) = x := by
  refine eq_of_matchIndex_eq (mask := mask) ?_ ?_
  · rw [wildcardNext_and_mask, wildcardPrev_and_mask]
  · rw [matchIndex_wildcardNext, matchIndex_wildcardPrev_succ]

theorem wildcardPrev_wildcardNext : wildcardPrev mask (wildcardNext mask x) = x := by
  have h := wildcardNext_wildcardPrev mask (~~~x)
  rw [wildcardPrev_eq_not, BitVec.not_not] at h
  rw [wildcardPrev_eq_not, h, BitVec.not_not]

/-! With no don't-care bit they stay (R121). -/

theorem wildcardNext_of_allOnes (h : mask = BitVec.allOnes n) : wildcardNext mask x = x := by
  simpa only [h, BitVec.and_allOnes] using wildcardNext_and_mask mask x

theorem wildcardPrev_of_allOnes (h : mask = BitVec.allOnes n) : wildcardPrev mask x = x := by
  simpa only [h, BitVec.and_allOnes] using wildcardPrev_and_mask mask x

end

/-- Settles O37: the scan is an increment whose carry passes the care bits. -/
theorem wnextClosedForm : Obligations.WnextClosedForm := by
  rintro k s c y h rfl
  rw [exec_wnext h, wildcardNext_closed_form]
  rfl

/-- Settles O38: the closed form of WNEXT, under complement. -/
theorem wprevClosedForm : Obligations.WprevClosedForm := by
  rintro k s c y h rfl
  rw [exec_wprev h, wildcardPrev_closed_form]
  rfl

/-- Settles O41: the cursor has care bits only, which the scans keep, so what they write is what stood there. -/
theorem noDontCareBitNoStep : Obligations.NoDontCareBitNoStep := by
  intro k s c h hmask
  have hself : s.withContext k c = s := congrArg (fun cs => { s with contexts := cs }) (State.contexts_set_self h)
  rw [exec_wnext h, exec_wprev h, wildcardNext_of_allOnes _ _ hmask, wildcardPrev_of_allOnes _ _ hmask, hself]
  exact ⟨rfl, rfl⟩

/-- Settles O44: each scan writes back the cursor that the other stepped from. -/
theorem wprevUndoesWnext : Obligations.WprevUndoesWnext := by
  intro k s c h
  have hback (c' : Context) : (s.contexts.set k (some c')).set k (some c) = s.contexts := by
    rw [Vector.set_set, State.contexts_set_self h]
  constructor
  · refine ⟨_, _, exec_wnext h, exec_wprev (c := { c with ip := wildcardNext c.mask c.ip }) (s.withContext_get k _), ?_⟩
    simp only [wildcardPrev_wildcardNext]
    exact hback _
  · refine ⟨_, _, exec_wprev h, exec_wnext (c := { c with ip := wildcardPrev c.mask c.ip }) (s.withContext_get k _), ?_⟩
    simp only [wildcardNext_wildcardPrev]
    exact hback _

/-- Settles O45: with every bit don't-care the index of an address is its number. -/
theorem plainSteppingIsTheFullWildcard : Obligations.PlainSteppingIsTheFullWildcard := by
  intro k s c a b m b' m' h hmask
  have hcursor : operand c.fam (c.ip.setWidth 128) = c.ip := operand_onBus c.fam c.ip
  rw [reply_wnext a b m h, reply_wprev a b m h, reply_next, reply_prev, hcursor, hmask, wildcardNext_zero_mask,
    wildcardPrev_zero_mask, nextAddress_eq, prevAddress_eq]
  exact ⟨rfl, rfl⟩

end Sys2Proof.Machine
end

section
/-! Further statements on the masked adder (spec/42_adder.md): the byte-by-byte ripples, and that adding one is NEXT. -/

namespace Sys2Proof.Machine

/-! The byte-by-byte ripples (R132, R134), on the bytes that three operands have at a list of positions. -/

section
variable (a b m : Nat → Byte)

theorem addLanes_cons (i : Nat) (is : List Nat) (low : List Byte) (c : Nat)
    (h : addLanes (is.map a) (is.map b) (is.map m) = (low, c)) :
    addLanes ((i :: is).map a) ((i :: is).map b) ((i :: is).map m) =
      (BitVec.ofNat 8 (((a i).toNat + (b i &&& m i).toNat + c) % 256) :: low,
        ((a i).toNat + (b i &&& m i).toNat + c) / 256) := by
  simp only [List.map_cons, addLanes, h]

theorem addLanes_length (is : List Nat) : (addLanes (is.map a) (is.map b) (is.map m)).1.length = is.length := by
  induction is with
  | nil => rfl
  | cons i is ih => rw [addLanes_cons a b m i is _ _ rfl, List.length_cons, ih, List.length_cons]

/-- A sum is the byte it leaves and the carry. -/
theorem byte_of_sum (t : Nat) : (BitVec.ofNat 8 (t % 256)).toNat + 256 * (t / 256) = t := by
  rw [BitVec.toNat_ofNat, Nat.mod_mod, Nat.mod_add_div]

/-- The ripple adds, counting the carry that leaves the first lane. -/
theorem addLanes_value (is : List Nat) :
    lanesValue (addLanes (is.map a) (is.map b) (is.map m)).1 +
        256 ^ is.length * (addLanes (is.map a) (is.map b) (is.map m)).2 =
      lanesValue (is.map a) + lanesValue (is.map fun i => b i &&& m i) := by
  induction is with
  | nil => rfl
  | cons i is ih =>
    have hlength := addLanes_length a b m is
    rw [addLanes_cons a b m i is _ _ rfl]
    generalize addLanes (is.map a) (is.map b) (is.map m) = low at ih hlength ⊢
    have hbyte := byte_of_sum ((a i).toNat + (b i &&& m i).toNat + low.2)
    simp only [lanesValue, List.map_cons, List.length_cons, List.length_map, hlength]
    linear_combination 256 ^ is.length * hbyte + ih

theorem subLanes_cons (i : Nat) (is : List Nat) (low : List Byte) (c : Int)
    (h : subLanes (is.map a) (is.map b) (is.map m) = (low, c)) :
    subLanes ((i :: is).map a) ((i :: is).map b) ((i :: is).map m) =
      (BitVec.ofInt 8 ((a i).toNat - (b i &&& m i).toNat - c) :: low,
        if ((a i).toNat - (b i &&& m i).toNat - c : Int) < 0 then 1 else 0) := by
  simp only [List.map_cons, subLanes, h]

theorem subLanes_length (is : List Nat) : (subLanes (is.map a) (is.map b) (is.map m)).1.length = is.length := by
  induction is with
  | nil => rfl
  | cons i is ih => rw [subLanes_cons a b m i is _ _ rfl, List.length_cons, ih, List.length_cons]

theorem subLanes_borrow (is : List Nat) :
    (subLanes (is.map a) (is.map b) (is.map m)).2 = 0 ∨ (subLanes (is.map a) (is.map b) (is.map m)).2 = 1 := by
  cases is with
  | nil => exact .inl rfl
  | cons i is =>
    rw [subLanes_cons a b m i is _ _ rfl]
    exact (ite_eq_or_eq _ _ _).symm

/-- A difference that borrows at most once comes back into a byte by one borrow. -/
theorem byte_of_difference {t : Int} (hlow : -256 ≤ t) (hhigh : t < 256) :
    ((BitVec.ofInt 8 t).toNat : Int) = t + 256 * (if t < 0 then 1 else 0) := by
  rw [← truncN, truncN_toNat]
  split <;> omega

/-- The ripple subtracts, counting the borrow that leaves the first lane. -/
theorem subLanes_value (is : List Nat) :
    (lanesValue (subLanes (is.map a) (is.map b) (is.map m)).1 : Int) =
      lanesValue (is.map a) - lanesValue (is.map fun i => b i &&& m i) +
        256 ^ is.length * (subLanes (is.map a) (is.map b) (is.map m)).2 := by
  induction is with
  | nil => rfl
  | cons i is ih =>
    have hlength := subLanes_length a b m is
    have hborrow := subLanes_borrow a b m is
    rw [subLanes_cons a b m i is _ _ rfl]
    generalize subLanes (is.map a) (is.map b) (is.map m) = low at ih hlength hborrow ⊢
    have hbyte := byte_of_difference (t := (a i).toNat - (b i &&& m i).toNat - low.2) (by omega) (by omega)
    simp only [lanesValue, List.map_cons, List.length_cons, List.length_map, hlength]
    push_cast
    linear_combination 256 ^ is.length * hbyte + ih

end

section
variable (f : Fam) (v w me : BitVec f.bits)

theorem map_byteAt_range : (List.range f.len).map (byteAt f v) = lanes f v := rfl

theorem lanes_and : lanes f (w &&& me) = (List.range f.len).map fun i => byteAt f w i &&& byteAt f me i :=
  List.map_congr_left fun _ _ => byteAt_and w me

/-- Lanes that spell a number but for what has left the first lane are the number's lanes modulo `256^L`. -/
theorem ofLanes_eq_truncN {l : List Byte} {x wraps : Int} (h : (lanesValue l : Int) = x + 256 ^ f.len * wraps) :
    ofLanes f l = truncN f.bits x := by
  have hpow : (256 ^ f.len : Int) = ((2 ^ f.bits : Nat) : Int) := by
    rw [Fam.two_pow_bits]
    norm_cast
  refine BitVec.eq_of_toNat_eq ?_
  rw [ofLanes, ← BitVec.ofInt_natCast, h, hpow, truncN, BitVec.toNat_ofInt, BitVec.toNat_ofInt, Int.add_mul_emod_self_left]

theorem ofLanes_addLanes : ofLanes f (addLanes (lanes f v) (lanes f w) (lanes f me)).1 = addMasked v w me := by
  have h := addLanes_value (byteAt f v) (byteAt f w) (byteAt f me) (List.range f.len)
  simp only [List.length_range, ← lanes_and, map_byteAt_range, lanesValue_lanes] at h
  refine ofLanes_eq_truncN f (wraps := -(addLanes (lanes f v) (lanes f w) (lanes f me)).2) ?_
  zify at h
  linarith

theorem ofLanes_subLanes : ofLanes f (subLanes (lanes f v) (lanes f w) (lanes f me)).1 = subMasked v w me := by
  have h := subLanes_value (byteAt f v) (byteAt f w) (byteAt f me) (List.range f.len)
  simp only [List.length_range, ← lanes_and, map_byteAt_range, lanesValue_lanes] at h
  exact ofLanes_eq_truncN f h

end

/-- Settles O26: the lanes of an address spell its number, and the ripples add and subtract modulo `256^L`. -/
theorem addAndSubByteByByte : Obligations.AddAndSubByteByByte := by
  rintro f men s _ rfl
  constructor
  · rw [ofLanes_addLanes]
    rfl
  · rw [ofLanes_subLanes]
    rfl

/-! Adding one (R139). -/

theorem operand_one (f : Fam) : operand f 1 = 1#f.bits := by cases f <;> rfl

/-- Settles O28: an unset mask lets the whole operand 1 through. -/
theorem addOneIsNext : Obligations.AddOneIsNext := by
  intro f s a m b' m'
  have hone : operand f 1 &&& maskOrAll false (operand f m) = 1#f.bits := by
    rw [operand_one]
    exact BitVec.and_allOnes
  rw [reply_add, reply_sub, reply_next, reply_prev, addMasked_eq, subMasked_eq, nextAddress_eq, prevAddress_eq, hone]
  exact ⟨rfl, rfl⟩

end Sys2Proof.Machine
end

section
/-! Further statements on the wildcard contexts (spec/43_wildcard_context.md section 3). -/

namespace Sys2Proof.Machine

theorem State.withContext_withOk_get (s : State) (k : CtxIndex) (c : Context) (r : Bus) (flag : Bool) :
    ((s.withContext k c).withOk r flag).contexts[k] = some c := s.withContext_get k c

/-- A context whose care bits are the complement of a mask on the port gives that mask back, over its length. -/
theorem reply_wmask_of_mask {s : State} {k : CtxIndex} {c : Context} (h : s.contexts[k] = some c) {m : Bus}
    (hmask : c.mask = ~~~operand c.fam m) (x y z : Bus) :
    reply (.wmask c.fam k) x y z s = some { status := .ok, r := onBus (operand c.fam m), flag := false } := by
  have hexec := exec_wmask (s := s.withPorts x y z) h
  rw [hmask, BitVec.not_not] at hexec
  exact reply_of_exec hexec rfl

/-- Settles O46: WFIRST and WLAST carry the care bits over, whose complement is the operand of WSET. -/
theorem wmaskReturnsWhatWsetWasGiven : Obligations.WmaskReturnsWhatWsetWasGiven := by
  intro f k j s a b m x y z
  have hk := (s.withPorts a b m).withContext_withOk_get k (construct f (operand f a) (operand f m)) 0 false
  refine ⟨_, _, _, exec_wset f k (s.withPorts a b m), exec_wfirst hk j, exec_wlast hk j, ?wset, ?wfirst, ?wlast⟩
  case wset => exact reply_wmask_of_mask hk rfl x y z
  case wfirst => exact reply_wmask_of_mask (State.withContext_withOk_get _ j (Context.first _) _ _) rfl x y z
  case wlast => exact reply_wmask_of_mask (State.withContext_withOk_get _ j (Context.last _) _ _) rfl x y z

end Sys2Proof.Machine
end

section
/-! Further statements on the composite sequences (spec/44_composite_sequences.md): CONTAINS, and the laws of FINDWILDCARD. -/

namespace Sys2Proof.Machine

/-! CONTAINS (R184). -/

theorem AnsweredOk.get_of_withContext {s t : State} {k : CtxIndex} {c : Context} (h : AnsweredOk (s.withContext k c) t) :
    t.contexts[k] = some c := by
  rw [h.contexts, State.withContext_get]

/-- WMATCH on a context that WSET has constructed. -/
theorem issue_wmatch {s : State} {k : CtxIndex} {f : Fam} {ip dc : BitVec f.bits}
    (h : s.contexts[k] = some (construct f ip dc)) (a b m : Bus) :
    ∃ t, issue (line (.wmatch f k) a b m) s =
      some ({ status := .ok, r := 0, flag := matchFlag (operand f a) (~~~dc) (ip &&& ~~~dc) }, t) ∧ AnsweredOk s t :=
  issue_answeredOk (exec_wmatch (s := s.present (line (.wmatch f k) a b m) s.host) h) (.present s _)

/-- What CONTAINS computes: whether the base and the broadcast address of `inner` agree with `outer.ip` under `outer.mask`. -/
def containsFlag {n : Nat} (outerIp outerMask innerIp innerMask : BitVec n) : Bool :=
  matchFlag innerIp outerMask (outerIp &&& outerMask) &&
    matchFlag (innerIp ||| ~~~innerMask) outerMask (outerIp &&& outerMask)

section
variable (f : Fam) (oi om ii im : Bus) (s : State)

theorem contains_answeredOk (k : CtxIndex) : ∃ c t, contains f k oi om ii im s =
    some (containsFlag (operand f oi) (operand f om) (operand f ii) (operand f im), t) ∧
      AnsweredOk (s.withContext k c) t := by
  obtain ⟨s₁, hnot, h₁⟩ := issue_not f om 0 0 s
  obtain ⟨s₂, hwset, h₂⟩ := issue_wset f oi 0 (onBus (~~~operand f om)) s₁ k
  obtain ⟨s₃, hbase, h₃⟩ := issue_wmatch h₂.get_of_withContext ii 0 0
  have h₃ := h₂.trans h₃
  obtain ⟨s₄, hbc, h₄⟩ := broadcast_answeredOk f s₃ ii im
  have h₄ := h₃.trans h₄
  obtain ⟨s₅, hlast, h₅⟩ := issue_wmatch h₄.get_of_withContext (onBus (operand f ii ||| ~~~operand f im)) 0 0
  refine ⟨_, s₅, ?_, (h₁.withContext k _).trans (h₄.trans h₅)⟩
  simp only [contains, hnot, hwset, hbase, hbc, hlast, operand_onBus, BitVec.not_not, Option.bind_eq_bind, Option.bind_some,
    Option.pure_def, containsFlag]

theorem onBus_beq (v w : BitVec f.bits) : (onBus v == onBus w) = (v == w) := by
  rw [Bool.eq_iff_iff, beq_iff_eq, beq_iff_eq, (Function.LeftInverse.injective (operand_onBus f)).eq_iff]

theorem containsByAnds_answeredOk : ∃ t, containsByAnds f oi om ii im s =
    some (containsFlag (operand f oi) (operand f om) (operand f ii) (operand f im), t) ∧ AnsweredOk s t := by
  obtain ⟨s₁, hbase, h₁⟩ := issue_and f ii om 0 s
  obtain ⟨s₂, hbc, h₂⟩ := broadcast_answeredOk f s₁ ii im
  obtain ⟨s₃, hlast, h₃⟩ := issue_and f (onBus (operand f ii ||| ~~~operand f im)) om 0 s₂
  obtain ⟨s₄, houter, h₄⟩ := issue_and f oi om 0 s₃
  refine ⟨s₄, ?_, ((h₁.trans h₂).trans h₃).trans h₄⟩
  simp only [containsByAnds, hbase, hbc, hlast, houter, operand_onBus, onBus_beq, Option.bind_eq_bind, Option.bind_some,
    Option.pure_def, containsFlag, matchFlag]

end

section
variable {n : Nat} {outerIp outerMask innerIp innerMask : BitVec n}

theorem containsFlag_iff : containsFlag outerIp outerMask innerIp innerMask = true ↔
    innerIp &&& outerMask = outerIp &&& outerMask ∧
      (innerIp ||| ~~~innerMask) &&& outerMask = outerIp &&& outerMask := by
  rw [containsFlag, Bool.and_eq_true, matchFlag_eq_true_iff, matchFlag_eq_true_iff]

/-- An address of a block lies, bit by bit, between the block's base and its broadcast address, so where these two agree it
agrees with them. -/
theorem and_mask_eq_of_ends_agree {x : BitVec n} (h : (x ||| ~~~innerMask) &&& outerMask = x &&& innerMask &&& outerMask) :
    x &&& outerMask = x &&& innerMask &&& outerMask := by
  rw [and_mask_eq_iff] at h ⊢
  intro q hm
  have hends := h q hm
  rw [BitVec.getLsbD_or, BitVec.getLsbD_and, getLsbD_not_of_lt (BitVec.lt_of_getLsbD hm)] at hends
  rw [BitVec.getLsbD_and]
  cases hinner : innerMask.getLsbD q
  · simp [hinner] at hends
  · rw [Bool.and_true]

theorem and_mask_eq_self {x mask : BitVec n} (h : x &&& ~~~mask = 0#n) : x &&& mask = x := by
  calc
    x &&& mask = (x &&& mask) ||| (x &&& ~~~mask) := by rw [h]; exact BitVec.or_zero.symm
    _ = x &&& (mask ||| ~~~mask) := BitVec.and_or_distrib_left.symm
    _ = x := by rw [BitVec.or_not_self, BitVec.and_allOnes]

theorem containsFlag_iff_forall (hbase : innerIp &&& ~~~innerMask = 0#n) :
    containsFlag outerIp outerMask innerIp innerMask = true ↔
      ∀ x : BitVec n, x &&& innerMask = innerIp → x &&& outerMask = outerIp &&& outerMask := by
  rw [containsFlag_iff]
  constructor
  · rintro ⟨hfirst, hlast⟩ x rfl
    rw [and_mask_or_not_mask] at hlast
    exact (and_mask_eq_of_ends_agree (hlast.trans hfirst.symm)).trans hfirst
  · intro hall
    have hself := and_mask_eq_self hbase
    exact ⟨hall _ hself, hall _ ((or_not_mask_and_mask innerIp innerMask).trans hself)⟩

end

/-- Settles O58: both forms compare the same two addresses with `outer.ip` under `outer.mask`, and the block lies between
them. -/
theorem containsAnswersContainment : Obligations.ContainsAnswersContainment := by
  rintro f k oi om ii im s _ _ _ _ rfl rfl rfl rfl
  obtain ⟨c, t, hrun, hcontexts, hhost, rs, hok, hrs⟩ := contains_answeredOk f oi om ii im s k
  obtain ⟨t', hrun', hcontexts', hhost', rs', hok', hrs'⟩ := containsByAnds_answeredOk f oi om ii im s
  refine ⟨_, _, t, t', rs, rs', hrun, hok, fun j hj => ?_, hhost, hrs, hrun', hok', hcontexts', hhost', hrs',
    fun _ _ => ⟨rfl, containsFlag_iff, containsFlag_iff_forall⟩⟩
  rw [hcontexts]
  exact (s.setContext_get k j c).trans (if_neg hj)

/-! The laws of FINDWILDCARD (R186). -/

section
variable {f : Fam} {a : Bus} {xs : List Bus} {acc dc : BitVec f.bits}

/-- The care bits of FINDWILDCARD's result are the positions where the addresses all agree. -/
theorem Combines.care_iff (h : Combines f a xs acc dc) {p : Nat} (hp : p < f.bits) :
    (~~~dc).getLsbD p = true ↔ ∀ x ∈ a :: xs, x.getLsbD p = a.getLsbD p := by
  rw [← h.dc_iff p hp, getLsbD_not_of_lt hp, Bool.not_eq_true']

theorem Combines.matches_of_mem (h : Combines f a xs acc dc) {x : Bus} (hx : x ∈ a :: xs) :
    (construct f acc dc).Matches (operand f x) := by
  refine and_mask_eq_iff.mpr fun p hcare => ?_
  have hp := BitVec.lt_of_getLsbD hcare
  have hagree := (h.care_iff hp).mp hcare
  rw [operand_getLsbD, decide_eq_true hp, Bool.true_and, hagree x hx, h.acc_of_dc hp ((h.dc_iff p hp).mpr hagree)]

/-- Where the addresses agree under a mask, they agree at each of its bits. -/
theorem Combines.care_of_agree (h : Combines f a xs acc dc) {w v : BitVec f.bits}
    (hagree : ∀ x ∈ a :: xs, operand f x &&& w = v) {p : Nat} (hw : w.getLsbD p = true) : (~~~dc).getLsbD p = true := by
  have hp := BitVec.lt_of_getLsbD hw
  refine (h.care_iff hp).mpr fun x hx => ?_
  have hbit := and_mask_eq_iff.mp ((hagree x hx).trans (hagree a List.mem_cons_self).symm) p hw
  simpa only [operand_getLsbD, hp, decide_true, Bool.true_and] using hbit

end

theorem reply_wmatch_of_operand_matches {s : State} {k : CtxIndex} {c : Context} (h : s.contexts[k] = some c) {x : Bus}
    (hx : c.Matches (operand c.fam x)) (b m : Bus) :
    reply (.wmatch c.fam k) x b m s = some { status := .ok, r := 0, flag := true } := by
  have hexec := exec_wmatch (s := s.withPorts x b m) h
  rw [State.withPorts_opA, matchFlag_eq_true_iff.mpr hx] at hexec
  exact reply_of_exec hexec rfl

/-- Settles O60: the care bits are exactly the positions where the addresses agree, and there the AND is each of them. -/
theorem findWildcardIsMostSpecific : Obligations.FindWildcardIsMostSpecific := by
  intro f k a b extra s
  obtain ⟨acc, dc, t, hrun, hanswered, hcombines⟩ := findWildcard_answeredOk f k a b extra s
  refine ⟨construct f acc dc, t, hrun, hanswered.get_of_withContext, rfl, ?covers, ?specific, fun hsame => ?single⟩
  case covers =>
    exact fun x hx => reply_wmatch_of_operand_matches hanswered.get_of_withContext (hcombines.matches_of_mem hx)
  case specific => exact fun w v hagree p => hcombines.care_of_agree hagree
  case single =>
    have hagree (p : Nat) : ∀ x ∈ a :: b :: extra, x.getLsbD p = a.getLsbD p :=
      List.forall_mem_cons.mpr ⟨rfl, fun x hx => by rw [hsame x hx]⟩
    exact ⟨fun p hp => (hcombines.care_iff hp).mpr (hagree p),
      fun p hp => hcombines.acc_of_dc hp ((hcombines.dc_iff p hp).mpr (hagree p))⟩

end Sys2Proof.Machine
end
